-- ==== Sys2Proof/Word.lean ====
section
/-! DEFINITION. The block's word types. Every value it computes with is unsigned (spec/00_scope.md R8, R14). -/

namespace Sys2Proof

/-- A byte is 8 bits (20_memory.md R51). -/
abbrev Byte := BitVec 8

/-- A 16-bit register or operand (10_state.md R22, 30_encoding.md R70). -/
abbrev Word := BitVec 16

/-- A command word (30_encoding.md R70). -/
abbrev CommandWord := BitVec 64

/-- An address of the register read port (20_memory.md R50). -/
abbrev PortAddr := BitVec 10

end Sys2Proof
end

