-- ==== Sys2Proof/Syntax.lean ====
section
/-! DEFINITION. The commands of the block, one constructor per row of the opcode map (spec/30_encoding.md R72). -/

namespace Sys2Proof

/-- A command with the operands its row uses, each in a type that holds exactly its values (30_encoding.md R71, R72):
`a` is A, `b` is B, `c` is C, `fc` is the function code `b = B[7:0]`, `on` is the state bit (`c = C[0]` or `d = D[0]`). -/
inductive Instr where
  /-- NOP, 44_control.md R200. -/
  | nop
  /-- CLR_ERR, 44_control.md R201. -/
  | clrErr
  /-- SET_CHCOUNT B, 44_control.md R202. -/
  | setChcount (b : Word)
  /-- SOFT_RESET, 44_control.md R203. -/
  | softReset
  /-- CRC_INIT, 40_crc.md R104. -/
  | crcInit
  /-- CRC_BYTE A, 40_crc.md R105. -/
  | crcByte (a : Byte)
  /-- TX_BEGIN A, b, 41_frame_tx.md R121. -/
  | txBegin (a fc : Byte)
  /-- TX_BYTE A, 41_frame_tx.md R122. -/
  | txByte (a : Byte)
  /-- TX_U16 B, 41_frame_tx.md R123. -/
  | txU16 (b : Word)
  /-- TX_END, 41_frame_tx.md R124. -/
  | txEnd
  /-- TX_CLEAR, 41_frame_tx.md R125. -/
  | txClear
  /-- ENC_RC A, B, C, 42_encoders.md R144. -/
  | encRc (a : Byte) (b c : Word)
  /-- ENC_WSC A, B, c, 42_encoders.md R145. -/
  | encWsc (a : Byte) (b : Word) (on : Bool)
  /-- ENC_WMC A, B, C, d, 42_encoders.md R146. -/
  | encWmc (a : Byte) (b c : Word) (on : Bool)
  /-- ENC_WMR A, B, C, 42_encoders.md R147. -/
  | encWmr (a : Byte) (b c : Word)
  /-- RX_CLEAR, 43_frame_rx.md R171. -/
  | rxClear
  /-- RX_BYTE A, 43_frame_rx.md R172. -/
  | rxByte (a : Byte)
  /-- DEC_CHECK A, b, 43_frame_rx.md R176. -/
  | decCheck (a fc : Byte)
  /-- DEC_ECHO, 43_frame_rx.md R177. -/
  | decEcho
deriving DecidableEq, Repr

end Sys2Proof
end

