-- ==== Sys2Proof/WellFormed.lean ====
section
/-! DEFINITION. When a command word is well formed: its opcode is in the map and its must-be-zero bits are clear
(spec/30_encoding.md R74). The operands of `Instr` have exact types, so every `Instr` is well formed by construction;
the check is on the 64-bit words, where a term can be ill formed. It is written from the bit patterns of R72, apart
from the decoder's match and mask rows, so that the two can be compared. -/

namespace Sys2Proof

/-- The operand bits the command with opcode `op` leaves unused, as a mask of bits 55:0 (the `0`s of R72's patterns
after the opcode); `none` for an opcode R75 reserves. -/
def mustBeZero (op : BitVec 8) : Option (BitVec 56) :=
  match op.toNat with
  | 0x00 | 0x01 | 0x03 | 0x10 | 0x23 | 0x24 | 0x40 | 0x43 => some 0xFFFFFFFFFFFFFF#56
  | 0x02 | 0x22 => some 0xFF0000FFFFFFFF#56
  | 0x11 | 0x21 | 0x41 => some 0x00FFFFFFFFFFFF#56
  | 0x20 | 0x42 => some 0x00FF00FFFFFFFF#56
  | 0x30 | 0x33 => some 0x0000000000FFFF#56
  | 0x31 => some 0x000000FFFEFFFF#56
  | 0x32 => some 0x0000000000FFFE#56
  | _ => none

/-- The opcode is one of R72's (its complement is the list of R75). -/
def opcodeKnown (w : CommandWord) : Bool :=
  (mustBeZero (w.extractLsb' 56 8)).isSome

/-- Every must-be-zero bit of the opcode's command is 0 (R74). -/
def unusedBitsClear (w : CommandWord) : Bool :=
  match mustBeZero (w.extractLsb' 56 8) with
  | some m => w.extractLsb' 0 56 &&& m == 0#56
  | none => false

/-- A word that is exactly one command (R73, R74). -/
def wordWellFormed (w : CommandWord) : Bool :=
  opcodeKnown w && unusedBitsClear w

end Sys2Proof
end

