-- ==== Sys2Proof/Decode.lean ====
section
/-! DEFINITION. Decoding a command word and encoding a command (spec/30_encoding.md R70 to R76). -/

namespace Sys2Proof

/-- Why a word is ILLEGAL (30_encoding.md R74). -/
inductive Reject where
  /-- The opcode is not in the map (R75). -/
  | reservedOpcode
  /-- The opcode is in the map and a must-be-zero bit is 1 (R74). -/
  | unusedBitSet
deriving DecidableEq, Repr

/-! ## Operand fields (R71) -/

/-- OP = w[63:56]. -/
def fieldOp (w : CommandWord) : BitVec 8 := w.extractLsb' 56 8

/-- A = w[55:48]. -/
def fieldA (w : CommandWord) : Byte := w.extractLsb' 48 8

/-- B = w[47:32]. -/
def fieldB (w : CommandWord) : Word := w.extractLsb' 32 16

/-- C = w[31:16]. -/
def fieldC (w : CommandWord) : Word := w.extractLsb' 16 16

/-- D = w[15:0]. -/
def fieldD (w : CommandWord) : Word := w.extractLsb' 0 16

/-- b = B[7:0], a function code. -/
def shortB (w : CommandWord) : Byte := (fieldB w).extractLsb' 0 8

/-- c = C[0], a state bit. -/
def bitC (w : CommandWord) : Bool := (fieldC w).getLsbD 0

/-- d = D[0], a state bit. -/
def bitD (w : CommandWord) : Bool := (fieldD w).getLsbD 0

/-! ## The opcode map (R72) -/

/-- A row of the opcode map: `w` is this command exactly when `w & mask = pattern` (the column `match`). -/
structure OpcodeRow where
  pattern : CommandWord
  mask : CommandWord
  build : CommandWord → Instr

def controlRows : List OpcodeRow := [
  ⟨0x0000000000000000#64, 0xFFFFFFFFFFFFFFFF#64, fun _ => .nop⟩,
  ⟨0x0100000000000000#64, 0xFFFFFFFFFFFFFFFF#64, fun _ => .clrErr⟩,
  ⟨0x0200000000000000#64, 0xFFFF0000FFFFFFFF#64, fun w => .setChcount (fieldB w)⟩,
  ⟨0x0300000000000000#64, 0xFFFFFFFFFFFFFFFF#64, fun _ => .softReset⟩]

def crcRows : List OpcodeRow := [
  ⟨0x1000000000000000#64, 0xFFFFFFFFFFFFFFFF#64, fun _ => .crcInit⟩,
  ⟨0x1100000000000000#64, 0xFF00FFFFFFFFFFFF#64, fun w => .crcByte (fieldA w)⟩]

def frameTxRows : List OpcodeRow := [
  ⟨0x2000000000000000#64, 0xFF00FF00FFFFFFFF#64, fun w => .txBegin (fieldA w) (shortB w)⟩,
  ⟨0x2100000000000000#64, 0xFF00FFFFFFFFFFFF#64, fun w => .txByte (fieldA w)⟩,
  ⟨0x2200000000000000#64, 0xFFFF0000FFFFFFFF#64, fun w => .txU16 (fieldB w)⟩,
  ⟨0x2300000000000000#64, 0xFFFFFFFFFFFFFFFF#64, fun _ => .txEnd⟩,
  ⟨0x2400000000000000#64, 0xFFFFFFFFFFFFFFFF#64, fun _ => .txClear⟩]

def encoderRows : List OpcodeRow := [
  ⟨0x3000000000000000#64, 0xFF0000000000FFFF#64, fun w => .encRc (fieldA w) (fieldB w) (fieldC w)⟩,
  ⟨0x3100000000000000#64, 0xFF000000FFFEFFFF#64, fun w => .encWsc (fieldA w) (fieldB w) (bitC w)⟩,
  ⟨0x3200000000000000#64, 0xFF0000000000FFFE#64, fun w => .encWmc (fieldA w) (fieldB w) (fieldC w) (bitD w)⟩,
  ⟨0x3300000000000000#64, 0xFF0000000000FFFF#64, fun w => .encWmr (fieldA w) (fieldB w) (fieldC w)⟩]

def frameRxRows : List OpcodeRow := [
  ⟨0x4000000000000000#64, 0xFFFFFFFFFFFFFFFF#64, fun _ => .rxClear⟩,
  ⟨0x4100000000000000#64, 0xFF00FFFFFFFFFFFF#64, fun w => .rxByte (fieldA w)⟩,
  ⟨0x4200000000000000#64, 0xFF00FF00FFFFFFFF#64, fun w => .decCheck (fieldA w) (shortB w)⟩,
  ⟨0x4300000000000000#64, 0xFFFFFFFFFFFFFFFF#64, fun _ => .decEcho⟩]

/-- The nineteen rows of R72, in the table's order. -/
def opcodeRows : List OpcodeRow :=
  controlRows ++ crcRows ++ frameTxRows ++ encoderRows ++ frameRxRows

/-- The word is the row's command. -/
def OpcodeRow.accepts (r : OpcodeRow) (w : CommandWord) : Bool :=
  w &&& r.mask == r.pattern

/-- The word's opcode is the row's. -/
def OpcodeRow.hasOpcode (r : OpcodeRow) (w : CommandWord) : Bool :=
  fieldOp w == fieldOp r.pattern

/-- `decode` of R73: the row that matches, or the reason the word is ILLEGAL (R74). -/
def decode (w : CommandWord) : Except Reject Instr :=
  match opcodeRows.find? (·.accepts w) with
  | some r => .ok (r.build w)
  | none => if opcodeRows.any (·.hasOpcode w) then .error .unusedBitSet else .error .reservedOpcode

/-- The host's entry: the command word whose bits are `w`, bit 0 its least significant bit (R8, R70). A command is one
64-bit word (R70), so bits of the word at or above `nbits` are 0. -/
def decodeTableWord (nbits w : Nat) : Option Instr :=
  (decode (BitVec.ofNat 64 (w % 2 ^ nbits))).toOption

/-! ## Encoding -/

/-- The word with the given fields (R70). -/
def assemble (op : BitVec 8) (a : Byte) (b c d : Word) : CommandWord :=
  op ++ a ++ b ++ c ++ d

/-- A short operand in the low bits of a 16-bit field, the bits above it 0 (R71, R77). -/
def shortField (fc : Byte) : Word := fc.setWidth 16

/-- A state bit in bit 0 of a 16-bit field, the bits above it 0 (R71, R77). -/
def bitField (on : Bool) : Word := (BitVec.ofBool on).setWidth 16

/-- The command's word: the opcode of R72 and the used operands; an operand field not listed is zero (R77). -/
def encode (i : Instr) : CommandWord :=
  match i with
  | .nop => assemble 0x00#8 0#8 0#16 0#16 0#16
  | .clrErr => assemble 0x01#8 0#8 0#16 0#16 0#16
  | .setChcount b => assemble 0x02#8 0#8 b 0#16 0#16
  | .softReset => assemble 0x03#8 0#8 0#16 0#16 0#16
  | .crcInit => assemble 0x10#8 0#8 0#16 0#16 0#16
  | .crcByte a => assemble 0x11#8 a 0#16 0#16 0#16
  | .txBegin a fc => assemble 0x20#8 a (shortField fc) 0#16 0#16
  | .txByte a => assemble 0x21#8 a 0#16 0#16 0#16
  | .txU16 b => assemble 0x22#8 0#8 b 0#16 0#16
  | .txEnd => assemble 0x23#8 0#8 0#16 0#16 0#16
  | .txClear => assemble 0x24#8 0#8 0#16 0#16 0#16
  | .encRc a b c => assemble 0x30#8 a b c 0#16
  | .encWsc a b on => assemble 0x31#8 a b (bitField on) 0#16
  | .encWmc a b c on => assemble 0x32#8 a b c (bitField on)
  | .encWmr a b c => assemble 0x33#8 a b c 0#16
  | .rxClear => assemble 0x40#8 0#8 0#16 0#16 0#16
  | .rxByte a => assemble 0x41#8 a 0#16 0#16 0#16
  | .decCheck a fc => assemble 0x42#8 a (shortField fc) 0#16 0#16
  | .decEcho => assemble 0x43#8 0#8 0#16 0#16 0#16

end Sys2Proof
end

