-- ==== Sys2Proof/Config.lean ====
section
/-! DEFINITION. The implementation parameters of spec/00_scope.md R6 and 42_encoders.md R143, and the constants the spec leaves open. -/

namespace Sys2Proof.Config

/-- `POLY`, the CRC polynomial in reflected form (R6). -/
def poly : Word := 0xA001#16

/-- `INIT`, the CRC's initial value (R6). -/
def crcInit : Word := 0xFFFF#16

/-- `NBUF`, the size of TXBUF and of RXBUF in bytes (R6). -/
def nbuf : Nat := 256

/-- The largest legal slave address (R6). -/
def maxSlaveAddr : Nat := 247

/-- The reset value of CHCOUNT (R6, 10_state.md R33). -/
def chcountReset : Word := 16#16

/-- `FC_RC`, read coils (R6, R143). -/
def fcRc : Byte := 0x01#8

/-- `FC_WSC`, write single coil (R6, R143). -/
def fcWsc : Byte := 0x05#8

/-- `FC_WMC`, write multiple coils (R6, R143). -/
def fcWmc : Byte := 0x0F#8

/-- `FC_WMR`, write multiple registers (R6, R143). -/
def fcWmr : Byte := 0x10#8

/-- `COIL_ON` (R6, R143). -/
def coilOn : Word := 0xFF00#16

/-- `COIL_OFF` (R6, R143). -/
def coilOff : Word := 0x0000#16

/-- `MAX_RC`, the read-coils quantity limit (R6, R143). -/
def maxRc : Nat := 2000

/-- `MAX_WMC`, the write-multiple-coils quantity limit (R6, R143). -/
def maxWmc : Nat := 1968

/-- `T_CMD`, the time a command takes: an OPEN parameter no rule depends on (R6, 70_reset_and_hazards.md R270).
Nothing in the model reads it (log 5). -/
opaque tCmd : CommandWord → Nat

/-- The byte at an index at or beyond a buffer's length. Such bytes are not state and no rule reads them (10_state.md
R32); it is reached only from states that break R25, and is a free value there. DESIGN CHOICE, safe (log 9). -/
opaque byteBeyondEnd : Nat → Byte

end Sys2Proof.Config
end

