-- ==== Sys2Proof/Machine/State.lean ====
section
/-! DEFINITION. The block's state, its value after reset, and the reasons a step could stop
(spec/10_state.md R20 to R33). -/

namespace Sys2Proof.Machine

/-- TXSTATE; the value 3 is never held (10_state.md R24). -/
inductive TxState where
  /-- IDLE = 0: no frame. -/
  | idle
  /-- OPEN = 1: a frame is being assembled and its CRC is not yet appended. -/
  | opened
  /-- SEALED = 2: a complete frame with its CRC. -/
  | sealed
deriving DecidableEq, Repr

/-- A result code. Codes 12 to 15 are never produced (60_exceptions.md R220). -/
inductive Result where
  | ok
  | crcMismatch
  | addrMismatch
  | exception
  | funcMismatch
  | shortFrame
  | overflow
  | echoMismatch
  | range
  | config
  | sequence
  | illegal
deriving DecidableEq, Repr

/-- One input of the host, taken between commands: the two ports of 20_memory.md R50 and the reset input of
70_reset_and_hazards.md R251. -/
inductive HostEvent where
  /-- A word presented on the command port. -/
  | command (w : CommandWord)
  /-- An address presented on the register read port. -/
  | read (addr : PortAddr)
  /-- The power-on reset input asserted and released (log 4). -/
  | powerOnReset
deriving DecidableEq, Repr

/-- One answer of the register read port. -/
structure PortRead where
  addr : PortAddr
  data : Word
deriving DecidableEq, Repr

/-- The machine. The first eleven fields are the complete architectural state (10_state.md R31); the last two are the
model's own and hold the host's side of the ports (logs 1 and 3). -/
structure State where
  /-- CRC, the CRC accumulator (R22). -/
  crc : Word
  /-- TXBUF, first byte at index 0; TXLEN is its length (R23). -/
  txbuf : List Byte
  /-- TXSTATE (R24). -/
  txstate : TxState
  /-- RXBUF, first received byte at index 0; RXLEN is its length (R26). -/
  rxbuf : List Byte
  /-- RXOVF (R26). -/
  rxovf : Bool
  /-- RES, the result code of the last command (R27). -/
  res : Result
  /-- SERR, the sticky error bit (R27). -/
  serr : Bool
  /-- EXC, the exception code of the last decode (R27). -/
  exc : Byte
  /-- CHCOUNT (R28). -/
  chcount : Word
  /-- RXCRC (R29). -/
  rxcrc : Word
  /-- PLEN (R30). -/
  plen : Word
  /-- The host's inputs still to be taken, the next one first. -/
  inbox : List HostEvent
  /-- The read port's answers so far, the newest first. -/
  reads : List PortRead
deriving DecidableEq, Repr

/-- The state after power-on reset (10_state.md R33, 70_reset_and_hazards.md R250), with no input presented and no read
answered. -/
def State.reset : State where
  crc := 0xFFFF#16
  txbuf := []
  txstate := .idle
  rxbuf := []
  rxovf := false
  res := .ok
  serr := false
  exc := 0x00#8
  chcount := 16#16
  rxcrc := 0xFFFF#16
  plen := 0#16
  inbox := []
  reads := []

/-- Faults. There are none: no command stops the block, every command ends by a result code in STATUS
(60_exceptions.md R224, R228), so the type has no constructor (log 7). -/
inductive Fault
deriving DecidableEq, Repr

/-- Refusals. -/
inductive Refusal where
  /-- An instruction without a meaning yet, raised by exec's arm for it and by nothing else. Safe. No arm raises it: every
  command has its meaning (log 7). -/
  | notModelled (mnemonic : String)
deriving DecidableEq, Repr

end Sys2Proof.Machine
end

