-- ==== Sys2Proof/Machine/Flags.lean ====
section
/-! DEFINITION. The STATUS fields: their codes, the STATUS view, and how a command's result is recorded
(spec/10_state.md R27, 60_exceptions.md R220, R224). -/

namespace Sys2Proof.Machine

/-- The 2-bit value of TXSTATE (10_state.md R24). -/
def TxState.code : TxState → BitVec 2
  | .idle => 0#2
  | .opened => 1#2
  | .sealed => 2#2

/-- The 4-bit value of a result code (60_exceptions.md R220). -/
def Result.code : Result → BitVec 4
  | .ok => 0#4
  | .crcMismatch => 1#4
  | .addrMismatch => 2#4
  | .exception => 3#4
  | .funcMismatch => 4#4
  | .shortFrame => 5#4
  | .overflow => 6#4
  | .echoMismatch => 7#4
  | .range => 8#4
  | .config => 9#4
  | .sequence => 10#4
  | .illegal => 11#4

/-- STATUS = EXC << 8 | TXSTATE << 6 | RXOVF << 5 | SERR << 4 | RES (10_state.md R27). -/
def State.status (s : State) : Word :=
  (s.exc.setWidth 16 <<< 8) ||| (s.txstate.code.setWidth 16 <<< 6) ||| ((BitVec.ofBool s.rxovf).setWidth 16 <<< 5) |||
    ((BitVec.ofBool s.serr).setWidth 16 <<< 4) ||| s.res.code.setWidth 16

/-- The state updates of `finish(code)`: RES <- code, and SERR <- 1 if code is not OK (60_exceptions.md R224). -/
def record (code : Result) (s : State) : State :=
  if code = .ok then { s with res := .ok } else { s with res := code, serr := true }

end Sys2Proof.Machine
end

