-- ==== Sys2Proof/Machine/Operands.lean ====
section
/-! DEFINITION. Operand arithmetic: byte halves, the operand checks of the commands, and the channel offset
(spec/00_scope.md R8, R9, R14, 42_encoders.md R141, R142). Checks are computed on Nat, so nothing wraps. -/

namespace Sys2Proof.Machine

/-- `lo8(v) = v[7:0]` (00_scope.md R8). -/
def lo8 (v : Word) : Byte := v.extractLsb' 0 8

/-- `hi8(v) = v[15:8]` (00_scope.md R8). -/
def hi8 (v : Word) : Byte := v.extractLsb' 8 8

/-- A 16-bit payload field, high byte first (20_memory.md R55). -/
def beBytes (v : Word) : List Byte := [hi8 v, lo8 v]

/-- `ceil(q/8) = (q + 7) >> 3` (00_scope.md R9). -/
def ceilDiv8 (q : Nat) : Nat := (q + 7) >>> 3

/-- `A > 247`: the address is outside 0 to 247 (41_frame_tx.md R121, 42_encoders.md R140). -/
def addrBad (a : Byte) : Bool := Config.maxSlaveAddr < a.toNat

/-- `b = 0x00 or b[7] = 1`: no request function code (41_frame_tx.md R121). -/
def requestFcBad (fc : Byte) : Bool := fc == 0x00#8 || fc.getLsbD 7

/-- `chan_ok(ch)`, with CHCOUNT as `count` (42_encoders.md R141). -/
def chanOk (count : Word) (ch : Nat) : Bool := 1 ≤ ch && ch ≤ count.toNat

/-- `span_ok(s, q, qmax)`, with CHCOUNT as `count` (42_encoders.md R141). -/
def spanOk (count : Word) (start q qmax : Nat) : Bool :=
  chanOk count start && 1 ≤ q && q ≤ qmax && start + q - 1 ≤ count.toNat

/-- The 0-based wire offset of a 1-based channel, `ch - 1` (42_encoders.md R142). It is sent only after `chanOk`, so the
subtraction does not wrap. -/
def wireOffset (ch : Word) : Word := ch - 1#16

/-- The pattern a write-single-coil request carries for a state bit (42_encoders.md R143, R145). -/
def coilPattern (on : Bool) : Word := if on then Config.coilOn else Config.coilOff

/-- Data byte `j` of a write-multiple-coils request for `q` coils (42_encoders.md R146): `k = min(8, q - 8j)` coils, each
in its bit, the unused high bits 0. -/
def coilByte (q : Nat) (on : Bool) (j : Nat) : Byte :=
  if on then BitVec.ofNat 8 (2 ^ min 8 (q - 8 * j) - 1) else 0x00#8

/-- The `n = ceil(q/8)` data bytes of a write-multiple-coils request (42_encoders.md R146). -/
def coilBytes (q : Nat) (on : Bool) : List Byte :=
  (List.range (ceilDiv8 q)).map (coilByte q on)

end Sys2Proof.Machine
end

