-- ==== Sys2Proof/Machine/Ops.lean ====
section
/-! DEFINITION. The operations the commands share: the CRC function (spec/40_crc.md), ending a command
(60_exceptions.md R224), the transmit primitives (41_frame_tx.md R120), the encoders' common order (42_encoders.md R140),
the decode function (43_frame_rx.md R175), reset (70_reset_and_hazards.md R250) and the register read port
(20_memory.md R52). -/

namespace Sys2Proof.Machine

/-! ## The CRC function -/

/-- One of the eight rounds of `crc_step` (40_crc.md R100). -/
def crcRound (c : Word) : Word :=
  if c.getLsbD 0 then (c >>> 1) ^^^ Config.poly else c >>> 1

/-- `repeat n times` of R100's round. -/
def crcRounds : Nat → Word → Word
  | 0, c => c
  | n + 1, c => crcRounds n (crcRound c)

/-- `crc_step(c, b)` (40_crc.md R100). -/
def crcStep (c : Word) (b : Byte) : Word := crcRounds 8 (c ^^^ b.setWidth 16)

/-- The CRC state after feeding a byte sequence in index order. -/
def crcFeed (c : Word) (m : List Byte) : Word := m.foldl crcStep c

/-- `crc16(s)` (40_crc.md R101). -/
def crc16 (m : List Byte) : Word := crcFeed Config.crcInit m

/-- A CRC on the wire, low byte first (20_memory.md R54). -/
def crcBytes (c : Word) : List Byte := [lo8 c, hi8 c]

/-- A frame: its body and the body's CRC (10_state.md R25, 20_memory.md R54). -/
def withCrc (body : List Byte) : List Byte := body ++ crcBytes (crc16 body)

/-- A request or response frame: address, function code, payload, CRC (00_scope.md R13). -/
def frame (a fc : Byte) (payload : List Byte) : List Byte := withCrc (a :: fc :: payload)

/-! ## Ending a command -/

/-- `finish(code)`: the block's one way to report, in place of taking an exception. The result is recorded and the command
ends; no state is saved, no mode changes, no vector is taken and nothing returns (60_exceptions.md R224, R228, R229). -/
def finish (code : Result) (s : State) : Host.Outcome State Fault Refusal := .next (record code s)

/-! ## Buffers -/

/-- The byte at an index of a buffer. No rule reads at or beyond the length (10_state.md R32); what such an index would
hold is left open (log 9). -/
def byteAt (buf : List Byte) (i : Nat) : Byte := (buf[i]?).getD (Config.byteBeyondEnd i)

/-! ## Transmit primitives (41_frame_tx.md R120) -/

/-- `tx_discard()`: drop any frame in TXBUF. -/
def txDiscard (s : State) : State := { s with txbuf := [], txstate := .idle }

/-- `tx_push(v)`: append one body byte and fold it into the running CRC. -/
def txPush (v : Byte) (s : State) : State := { s with txbuf := s.txbuf ++ [v], crc := crcStep s.crc v }

/-- `tx_push` of each byte, in order. -/
def txPushAll (vs : List Byte) (s : State) : State := vs.foldl (fun t v => txPush v t) s

/-- `tx_begin(a, f)`. -/
def txBegin (a fc : Byte) (s : State) : State :=
  txPush fc (txPush a { s with txbuf := [], crc := Config.crcInit, txstate := .opened })

/-- `tx_seal()`: append the CRC, low byte first; CRC itself is not changed. -/
def txSeal (s : State) : State := { s with txbuf := s.txbuf ++ crcBytes s.crc, txstate := .sealed }

/-- The order every encoder runs in (42_encoders.md R140): discard, address check, operand check, then a complete sealed
frame. -/
def runEncoder (a : Byte) (operandsOk : Bool) (fc : Byte) (payload : List Byte) (s : State) :
    Host.Outcome State Fault Refusal :=
  if addrBad a then finish .config (txDiscard s)
  else if !operandsOk then finish .range (txDiscard s)
  else finish .ok (txSeal (txPushAll payload (txBegin a fc (txDiscard s))))

/-! ## The decode function -/

/-- The CRC embedded in a received frame, `RXBUF[n-2] | RXBUF[n-1] << 8` (20_memory.md R54). -/
def embeddedCrc (buf : List Byte) : Word :=
  (byteAt buf (buf.length - 2)).setWidth 16 ||| ((byteAt buf (buf.length - 1)).setWidth 16 <<< 8)

/-- PLEN <- n - 4 (43_frame_rx.md R175). -/
def setPlen (s : State) : State := { s with plen := BitVec.ofNat 16 (s.rxbuf.length - 4) }

/-- The checks of `rx_decode` after the CRC check: address, exception flag, function code (43_frame_rx.md R175). -/
def rxHeader (ea ef : Byte) (s : State) : Result × State :=
  if byteAt s.rxbuf 0 ≠ ea then (.addrMismatch, s)
  else if (byteAt s.rxbuf 1).getLsbD 7 then
    if s.rxbuf.length < 5 then (.shortFrame, s)
    else (.exception, setPlen { s with exc := byteAt s.rxbuf 2 })
  else if byteAt s.rxbuf 1 ≠ ef then (.funcMismatch, setPlen s)
  else (.ok, setPlen s)

/-- The CRC check of `rx_decode` and the checks after it (43_frame_rx.md R175). -/
def rxBody (ea ef : Byte) (s : State) : Result × State :=
  let c := crc16 (s.rxbuf.take (s.rxbuf.length - 2))
  let s := { s with rxcrc := c }
  if c ≠ embeddedCrc s.rxbuf then (.crcMismatch, s) else rxHeader ea ef s

/-- `rx_decode(ea, ef)`: its result code and the state it leaves (43_frame_rx.md R175). -/
def rxDecode (ea ef : Byte) (s : State) : Result × State :=
  let s := { s with exc := 0x00#8, plen := 0#16 }
  if s.rxovf then (.overflow, s)
  else if s.rxbuf.length < 4 then (.shortFrame, s)
  else rxBody ea ef s

/-! ## Reset -/

/-- Every element of the block's state to its reset value (10_state.md R33, 70_reset_and_hazards.md R250). The host's side
of the ports is not the block's state and stays (log 4). -/
def resetBlock (s : State) : State := { State.reset with inbox := s.inbox, reads := s.reads }

/-! ## The register read port -/

/-- The named registers at addresses 0x000 to 0x006; 0x007 to 0x0FF are reserved and read 0 (20_memory.md R52). -/
def controlRead (n : Nat) (s : State) : Word :=
  match n with
  | 0 => s.status
  | 1 => s.crc
  | 2 => BitVec.ofNat 16 s.txbuf.length
  | 3 => BitVec.ofNat 16 s.rxbuf.length
  | 4 => s.chcount
  | 5 => s.rxcrc
  | 6 => s.plen
  | _ => 0x0000#16

/-- A buffer byte zero-extended, or 0 at or beyond the length (20_memory.md R52, R53). -/
def bufferRead (buf : List Byte) (i : Nat) : Word :=
  match buf[i]? with
  | some b => b.setWidth 16
  | none => 0x0000#16

/-- `RegRead(a)` (20_memory.md R52). -/
def regRead (a : PortAddr) (s : State) : Word :=
  if a.toNat < 0x100 then controlRead a.toNat s
  else if a.toNat < 0x200 then bufferRead s.txbuf (a.toNat - 0x100)
  else if a.toNat < 0x300 then bufferRead s.rxbuf (a.toNat - 0x200)
  else 0x0000#16

/-- The read port answers one read: nothing of the block changes (20_memory.md R53); the answer goes to the host. -/
def answerRead (a : PortAddr) (s : State) : State := { s with reads := ⟨a, regRead a s⟩ :: s.reads }

end Sys2Proof.Machine
end

