-- ==== Sys2Proof/Machine/Control.lean ====
section
/-! DEFINITION. The block control commands (spec/44_control.md). -/

namespace Sys2Proof.Machine

/-- NOP (R200). -/
def execNop (s : State) : Host.Outcome State Fault Refusal := finish .ok s

/-- CLR_ERR (R201). -/
def execClrErr (s : State) : Host.Outcome State Fault Refusal := finish .ok { s with serr := false }

/-- SET_CHCOUNT (R202). -/
def execSetChcount (b : Word) (s : State) : Host.Outcome State Fault Refusal :=
  if b = 0#16 then finish .config s else finish .ok { s with chcount := b }

/-- SOFT_RESET (R203). -/
def execSoftReset (s : State) : Host.Outcome State Fault Refusal := finish .ok (resetBlock s)

end Sys2Proof.Machine
end

