-- ==== Sys2Proof/Machine/Crc.lean ====
section
/-! DEFINITION. The standalone CRC commands (spec/40_crc.md). -/

namespace Sys2Proof.Machine

/-- CRC_INIT (R104). -/
def execCrcInit (s : State) : Host.Outcome State Fault Refusal :=
  if s.txstate = .opened then finish .sequence s else finish .ok { s with crc := Config.crcInit }

/-- CRC_BYTE (R105). -/
def execCrcByte (a : Byte) (s : State) : Host.Outcome State Fault Refusal :=
  if s.txstate = .opened then finish .sequence s else finish .ok { s with crc := crcStep s.crc a }

end Sys2Proof.Machine
end

