-- ==== Sys2Proof/Machine/Encoders.lean ====
section
/-! DEFINITION. The request encoders (spec/42_encoders.md). -/

namespace Sys2Proof.Machine

/-- ENC_RC (R144). -/
def execEncRc (a : Byte) (b c : Word) (s : State) : Host.Outcome State Fault Refusal :=
  runEncoder a (spanOk s.chcount b.toNat c.toNat Config.maxRc) Config.fcRc (beBytes (wireOffset b) ++ beBytes c) s

/-- ENC_WSC (R145). -/
def execEncWsc (a : Byte) (b : Word) (on : Bool) (s : State) : Host.Outcome State Fault Refusal :=
  runEncoder a (chanOk s.chcount b.toNat) Config.fcWsc (beBytes (wireOffset b) ++ beBytes (coilPattern on)) s

/-- ENC_WMC (R146). -/
def execEncWmc (a : Byte) (b c : Word) (on : Bool) (s : State) : Host.Outcome State Fault Refusal :=
  runEncoder a (spanOk s.chcount b.toNat c.toNat Config.maxWmc) Config.fcWmc
    (beBytes (wireOffset b) ++ beBytes c ++ [BitVec.ofNat 8 (ceilDiv8 c.toNat)] ++ coilBytes c.toNat on) s

/-- ENC_WMR: one register, its address and value unchecked (R147, R148). -/
def execEncWmr (a : Byte) (b c : Word) (s : State) : Host.Outcome State Fault Refusal :=
  runEncoder a true Config.fcWmr (beBytes b ++ [0x00#8, 0x01#8, 0x02#8] ++ beBytes c) s

end Sys2Proof.Machine
end

