-- ==== Sys2Proof/Machine/FrameRx.lean ====
section
/-! DEFINITION. Response capture and decoding (spec/43_frame_rx.md). -/

namespace Sys2Proof.Machine

/-- RX_CLEAR (R171). -/
def execRxClear (s : State) : Host.Outcome State Fault Refusal := finish .ok { s with rxbuf := [], rxovf := false }

/-- RX_BYTE (R172). -/
def execRxByte (a : Byte) (s : State) : Host.Outcome State Fault Refusal :=
  if s.rxbuf.length = Config.nbuf then finish .overflow { s with rxovf := true }
  else finish .ok { s with rxbuf := s.rxbuf ++ [a] }

/-- DEC_CHECK (R176). -/
def execDecCheck (a fc : Byte) (s : State) : Host.Outcome State Fault Refusal :=
  finish (rxDecode a fc s).1 (rxDecode a fc s).2

/-- The result of DEC_ECHO: a decode that is OK of a response that is not the request gives ECHO_MISMATCH (R177). -/
def echoResult (r : Result) (s : State) : Result :=
  if r = .ok ∧ s.rxbuf ≠ s.txbuf then .echoMismatch else r

/-- DEC_ECHO (R177). -/
def execDecEcho (s : State) : Host.Outcome State Fault Refusal :=
  if s.txstate ≠ .sealed then finish .sequence s
  else
    let d := rxDecode (byteAt s.txbuf 0) (byteAt s.txbuf 1) s
    finish (echoResult d.1 s) d.2

end Sys2Proof.Machine
end

