-- ==== Sys2Proof/Machine/FrameTx.lean ====
section
/-! DEFINITION. The request frame assembly commands (spec/41_frame_tx.md). -/

namespace Sys2Proof.Machine

/-- TX_BEGIN (R121). -/
def execTxBegin (a fc : Byte) (s : State) : Host.Outcome State Fault Refusal :=
  if addrBad a then finish .config (txDiscard s)
  else if requestFcBad fc then finish .range (txDiscard s)
  else finish .ok (txBegin a fc (txDiscard s))

/-- TX_BYTE (R122). -/
def execTxByte (a : Byte) (s : State) : Host.Outcome State Fault Refusal :=
  if s.txstate ≠ .opened then finish .sequence s
  else if s.txbuf.length + 1 > Config.nbuf - 2 then finish .overflow s
  else finish .ok (txPush a s)

/-- TX_U16 (R123). -/
def execTxU16 (b : Word) (s : State) : Host.Outcome State Fault Refusal :=
  if s.txstate ≠ .opened then finish .sequence s
  else if s.txbuf.length + 2 > Config.nbuf - 2 then finish .overflow s
  else finish .ok (txPushAll (beBytes b) s)

/-- TX_END (R124). -/
def execTxEnd (s : State) : Host.Outcome State Fault Refusal :=
  if s.txstate ≠ .opened then finish .sequence s else finish .ok (txSeal s)

/-- TX_CLEAR (R125). -/
def execTxClear (s : State) : Host.Outcome State Fault Refusal := finish .ok (txDiscard s)

end Sys2Proof.Machine
end

