-- ==== Sys2Proof/Machine/Dispatch.lean ====
section
/-! DEFINITION. The meaning of every command, one arm per constructor of Instr. -/

namespace Sys2Proof.Machine

def exec (i : Instr) (s : State) : Host.Outcome State Fault Refusal :=
  match i with
  | .nop => Sys2Proof.Machine.execNop s
  | .clrErr => Sys2Proof.Machine.execClrErr s
  | .setChcount b => Sys2Proof.Machine.execSetChcount b s
  | .softReset => Sys2Proof.Machine.execSoftReset s
  | .crcInit => Sys2Proof.Machine.execCrcInit s
  | .crcByte a => Sys2Proof.Machine.execCrcByte a s
  | .txBegin a fc => Sys2Proof.Machine.execTxBegin a fc s
  | .txByte a => Sys2Proof.Machine.execTxByte a s
  | .txU16 b => Sys2Proof.Machine.execTxU16 b s
  | .txEnd => Sys2Proof.Machine.execTxEnd s
  | .txClear => Sys2Proof.Machine.execTxClear s
  | .encRc a b c => Sys2Proof.Machine.execEncRc a b c s
  | .encWsc a b on => Sys2Proof.Machine.execEncWsc a b on s
  | .encWmc a b c on => Sys2Proof.Machine.execEncWmc a b c on s
  | .encWmr a b c => Sys2Proof.Machine.execEncWmr a b c s
  | .rxClear => Sys2Proof.Machine.execRxClear s
  | .rxByte a => Sys2Proof.Machine.execRxByte a s
  | .decCheck a fc => Sys2Proof.Machine.execDecCheck a fc s
  | .decEcho => Sys2Proof.Machine.execDecEcho s

end Sys2Proof.Machine
end

