-- ==== Sys2Proof/Machine/Step.lean ====
section
/-! DEFINITION. One step of the machine: it takes the host's next input (spec/10_state.md R20, 20_memory.md R61). -/

namespace Sys2Proof.Machine

/-- The block takes one command word: it decodes it before it reads any state, and runs the command or ends ILLEGAL
(30_encoding.md R73, R74). -/
def takeCommand (w : CommandWord) (s : State) : Host.Outcome State Fault Refusal :=
  match decode w with
  | .ok i => exec i s
  | .error _ => finish .illegal s

/-- One step. The next input of the host is taken: a command (R20, R58), a read (R53), or the reset pulse (R251). With no
input the block waits (log 2). -/
def step (s : State) : Host.Outcome State Fault Refusal :=
  match s.inbox with
  | [] => .next s
  | .command w :: rest => takeCommand w { s with inbox := rest }
  | .read a :: rest => .next (answerRead a { s with inbox := rest })
  | .powerOnReset :: rest => .next (resetBlock { s with inbox := rest })

/-- `s` with the command word `w` next on the command port (log 1): the block fetches no commands, the host presents each
one (20_memory.md R63). Bits of `w` at or above `nbits` are 0. -/
def State.withFetchWord (s : State) (nbits w : Nat) : State :=
  { s with inbox := .command (BitVec.ofNat 64 (w % 2 ^ nbits)) :: s.inbox }

end Sys2Proof.Machine
end

