-- ==== Sys2Proof/Machine/Pseudo.lean ====
section
/-! DEFINITION. The pseudo-commands and a run of several commands (spec/30_encoding.md R78). -/

namespace Sys2Proof.Machine

/-- The commands one after the other, each on the state the one before left. -/
def execAll (is : List Instr) (s : State) : Host.Outcome State Fault Refusal :=
  match is with
  | [] => .next s
  | i :: rest =>
    match exec i s with
    | .next t => execAll rest t
    | .fault r => .fault r
    | .refused r => .refused r

/-- The commands one after the other, as long as each ends OK: the state the last one left, or none. -/
def execAllOk (is : List Instr) (s : State) : Option State :=
  match is with
  | [] => some s
  | i :: rest =>
    match exec i s with
    | .next t => if t.res = .ok then execAllOk rest t else none
    | .fault _ => none
    | .refused _ => none

/-- `CRC_OVER b0, ..., bk`. -/
def crcOver (bytes : List Byte) : List Instr := .crcInit :: bytes.map .crcByte

/-- `TX_FRAME addr, fc, p0, ..., pk`. -/
def txFrame (addr fc : Byte) (payload : List Byte) : List Instr :=
  .txBegin addr fc :: payload.map .txByte ++ [.txEnd]

/-- `RX_FRAME r0, ..., rk`. -/
def rxFrame (bytes : List Byte) : List Instr := .rxClear :: bytes.map .rxByte

/-- `ENC_WMR_N addr, start, v0, ..., vk`, for 1 to 123 values. -/
def encWmrN (addr : Byte) (start : Word) (values : List Word) : List Instr :=
  [.txBegin addr 0x10#8, .txU16 start, .txU16 (BitVec.ofNat 16 values.length),
    .txByte (BitVec.ofNat 8 (2 * values.length))] ++ values.map .txU16 ++ [.txEnd]

end Sys2Proof.Machine
end

