-- ==== Sys2Proof/Safety.lean ====
section
/-! DEFINITION. What a safe run keeps, in the terms the statements use: the invariants of spec/10_state.md, the condition
under which a host may transmit (70_reset_and_hazards.md R262), and which commands may end how (60_exceptions.md R221). -/

namespace Sys2Proof.Machine

/-- The transmit-side invariants, one conjunct per bullet of 10_state.md R25. -/
abbrev State.TxInv (s : State) : Prop :=
  (s.txstate = .idle → s.txbuf.length = 0) ∧
  (s.txstate = .opened → 2 ≤ s.txbuf.length ∧ s.txbuf.length ≤ Config.nbuf - 2 ∧ s.crc = crc16 s.txbuf) ∧
  (s.txstate = .sealed → 4 ≤ s.txbuf.length ∧ s.txbuf.length ≤ Config.nbuf ∧
    s.txbuf = s.txbuf.take (s.txbuf.length - 2) ++
      [lo8 (crc16 (s.txbuf.take (s.txbuf.length - 2))), hi8 (crc16 (s.txbuf.take (s.txbuf.length - 2)))]) ∧
  (2 ≤ s.txbuf.length → (byteAt s.txbuf 0).toNat ≤ 247 ∧ 1 ≤ (byteAt s.txbuf 1).toNat ∧
    (byteAt s.txbuf 1).toNat ≤ 0x7F)

/-- The receive-side ranges: RXLEN (10_state.md R26), PLEN (R30), and RXOVF only on a full buffer (43_frame_rx.md R172). -/
abbrev State.RxInv (s : State) : Prop :=
  s.rxbuf.length ≤ Config.nbuf ∧ s.plen.toNat ≤ Config.nbuf - 4 ∧ (s.rxovf = true → s.rxbuf.length = Config.nbuf)

/-- The ranges of the other elements: CHCOUNT is never 0 (10_state.md R28), and a failed last command has set SERR
(60_exceptions.md R224). -/
abbrev State.ControlInv (s : State) : Prop :=
  s.chcount ≠ 0#16 ∧ (s.res ≠ .ok → s.serr = true)

/-- The invariant of the machine. -/
abbrev State.Inv (s : State) : Prop := s.TxInv ∧ s.RxInv ∧ s.ControlInv

/-- The host may transmit TXBUF (70_reset_and_hazards.md R262): the frame is sealed. R262 also asks that the command that
built it ended OK. Every frame that is sealed was built by a command that ended OK (41_frame_tx.md R124, 42_encoders.md
R140; `Obligations.SealedFrameWasBuiltOk` states it), so the state needs no record of that command's RES; the RES of a
later command does not matter. -/
def State.mayTransmit (s : State) : Bool := s.txstate == .sealed

/-- What the host sends when it transmits: all TXLEN bytes in index order, and nothing while TXSTATE is OPEN or IDLE
(70_reset_and_hazards.md R262). -/
def State.requestToSend (s : State) : Option (List Byte) := if s.mayTransmit then some s.txbuf else none

/-- The ILLEGAL outcome the rule of each command lists: a word with the command's opcode and a 1 in an unused bit
(30_encoding.md R74) changes RES and SERR only. `unused` holds the command's must-be-zero bits. -/
def UnusedBitsEndIllegal (op : BitVec 8) (unused : CommandWord) : Prop :=
  ∀ (s : State) (w : CommandWord) (rest : List HostEvent),
    s.inbox = .command w :: rest → fieldOp w = op → w &&& unused ≠ 0#64 →
    step s = .next { s with inbox := rest, res := .illegal, serr := true }

/-- The input is a read of the register read port. -/
def HostEvent.isRead : HostEvent → Bool
  | .read _ => true
  | _ => false

/-- One payload item of 41_frame_tx.md R126: a byte for TX_BYTE or a 16-bit field for TX_U16. -/
abbrev PayloadItem := Byte ⊕ Word

/-- The command that appends the item. -/
def PayloadItem.command : PayloadItem → Instr
  | .inl b => .txByte b
  | .inr v => .txU16 v

/-- The bytes the item appends (41_frame_tx.md R122, R123). -/
def PayloadItem.bytes : PayloadItem → List Byte
  | .inl b => [b]
  | .inr v => [hi8 v, lo8 v]

end Sys2Proof.Machine

namespace Sys2Proof

open Sys2Proof.Machine (Result)

/-- The result codes a command may end with, beside ILLEGAL (60_exceptions.md R221). -/
def Instr.results : Instr → List Result
  | .nop | .clrErr | .softReset | .txClear | .rxClear => [.ok]
  | .setChcount _ => [.ok, .config]
  | .crcInit | .crcByte _ | .txEnd => [.ok, .sequence]
  | .txBegin _ _ | .encRc _ _ _ | .encWsc _ _ _ | .encWmc _ _ _ _ => [.ok, .range, .config]
  | .txByte _ | .txU16 _ => [.ok, .overflow, .sequence]
  | .encWmr _ _ _ => [.ok, .config]
  | .rxByte _ => [.ok, .overflow]
  | .decCheck _ _ => [.ok, .crcMismatch, .addrMismatch, .exception, .funcMismatch, .shortFrame, .overflow]
  | .decEcho =>
    [.ok, .crcMismatch, .addrMismatch, .exception, .funcMismatch, .shortFrame, .overflow, .echoMismatch, .sequence]

/-- The commands of 41_frame_tx.md. -/
def Instr.isTx : Instr → Bool
  | .txBegin _ _ | .txByte _ | .txU16 _ | .txEnd | .txClear => true
  | .nop | .clrErr | .setChcount _ | .softReset | .crcInit | .crcByte _ | .encRc _ _ _ | .encWsc _ _ _
  | .encWmc _ _ _ _ | .encWmr _ _ _ | .rxClear | .rxByte _ | .decCheck _ _ | .decEcho => false

/-- The commands that append payload bytes (41_frame_tx.md R122, R123). -/
def Instr.appendsPayload : Instr → Bool
  | .txByte _ | .txU16 _ => true
  | .nop | .clrErr | .setChcount _ | .softReset | .crcInit | .crcByte _ | .txBegin _ _ | .txEnd | .txClear
  | .encRc _ _ _ | .encWsc _ _ _ | .encWmc _ _ _ _ | .encWmr _ _ _ | .rxClear | .rxByte _ | .decCheck _ _
  | .decEcho => false

/-- The payload bytes a command appends to an open frame when it ends OK (41_frame_tx.md R122, R123). -/
def Instr.payload : Instr → List Byte
  | .txByte b => [b]
  | .txU16 v => [Machine.hi8 v, Machine.lo8 v]
  | .nop | .clrErr | .setChcount _ | .softReset | .crcInit | .crcByte _ | .txBegin _ _ | .txEnd | .txClear
  | .encRc _ _ _ | .encWsc _ _ _ | .encWmc _ _ _ _ | .encWmr _ _ _ | .rxClear | .rxByte _ | .decCheck _ _
  | .decEcho => []

/-- The encoders (42_encoders.md). -/
def Instr.isEncoder : Instr → Bool
  | .encRc _ _ _ | .encWsc _ _ _ | .encWmc _ _ _ _ | .encWmr _ _ _ => true
  | .nop | .clrErr | .setChcount _ | .softReset | .crcInit | .crcByte _ | .txBegin _ _ | .txByte _
  | .txU16 _ | .txEnd | .txClear | .rxClear | .rxByte _ | .decCheck _ _ | .decEcho => false

/-- The two decode commands (43_frame_rx.md). -/
def Instr.isDecode : Instr → Bool
  | .decCheck _ _ | .decEcho => true
  | .nop | .clrErr | .setChcount _ | .softReset | .crcInit | .crcByte _ | .txBegin _ _ | .txByte _
  | .txU16 _ | .txEnd | .txClear | .encRc _ _ _ | .encWsc _ _ _ | .encWmc _ _ _ _ | .encWmr _ _ _
  | .rxClear | .rxByte _ => false

/-! The commands that may write each element: 10_state.md R22, R23, R26 to R30 with the tables of R27. SOFT_RESET is the
reset those rules name (70_reset_and_hazards.md R250). -/

/-- May write CRC (R22). -/
def Instr.writesCrc : Instr → Bool
  | .softReset | .crcInit | .crcByte _ | .txBegin _ _ | .txByte _ | .txU16 _ | .encRc _ _ _
  | .encWsc _ _ _ | .encWmc _ _ _ _ | .encWmr _ _ _ => true
  | .nop | .clrErr | .setChcount _ | .txEnd | .txClear | .rxClear | .rxByte _ | .decCheck _ _
  | .decEcho => false

/-- May write TXBUF or TXSTATE (R23, R27). -/
def Instr.writesTx : Instr → Bool
  | .softReset | .txBegin _ _ | .txByte _ | .txU16 _ | .txEnd | .txClear | .encRc _ _ _
  | .encWsc _ _ _ | .encWmc _ _ _ _ | .encWmr _ _ _ => true
  | .nop | .clrErr | .setChcount _ | .crcInit | .crcByte _ | .rxClear | .rxByte _ | .decCheck _ _
  | .decEcho => false

/-- May write RXBUF or RXOVF (R26). -/
def Instr.writesRx : Instr → Bool
  | .softReset | .rxClear | .rxByte _ => true
  | .nop | .clrErr | .setChcount _ | .crcInit | .crcByte _ | .txBegin _ _ | .txByte _ | .txU16 _
  | .txEnd | .txClear | .encRc _ _ _ | .encWsc _ _ _ | .encWmc _ _ _ _ | .encWmr _ _ _
  | .decCheck _ _ | .decEcho => false

/-- May write EXC, PLEN or RXCRC (R27, R29, R30). -/
def Instr.writesDecode : Instr → Bool
  | .softReset | .decCheck _ _ | .decEcho => true
  | .nop | .clrErr | .setChcount _ | .crcInit | .crcByte _ | .txBegin _ _ | .txByte _ | .txU16 _
  | .txEnd | .txClear | .encRc _ _ _ | .encWsc _ _ _ | .encWmc _ _ _ _ | .encWmr _ _ _ | .rxClear
  | .rxByte _ => false

/-- May write CHCOUNT (R28). -/
def Instr.writesChcount : Instr → Bool
  | .setChcount _ | .softReset => true
  | .nop | .clrErr | .crcInit | .crcByte _ | .txBegin _ _ | .txByte _ | .txU16 _ | .txEnd
  | .txClear | .encRc _ _ _ | .encWsc _ _ _ | .encWmc _ _ _ _ | .encWmr _ _ _ | .rxClear
  | .rxByte _ | .decCheck _ _ | .decEcho => false

/-- Clears SERR (R27). -/
def Instr.clearsSerr : Instr → Bool
  | .clrErr | .softReset => true
  | .nop | .setChcount _ | .crcInit | .crcByte _ | .txBegin _ _ | .txByte _ | .txU16 _ | .txEnd
  | .txClear | .encRc _ _ _ | .encWsc _ _ _ | .encWmc _ _ _ _ | .encWmr _ _ _ | .rxClear
  | .rxByte _ | .decCheck _ _ | .decEcho => false

end Sys2Proof

namespace Sys2Proof.Machine

/-- The commands one after the other, as long as each command of 41_frame_tx.md among them ends OK; the others may end
with any code. The state the last one left, or none (41_frame_tx.md R126). -/
def execTxOk (is : List Instr) (s : State) : Option State :=
  match is with
  | [] => some s
  | i :: rest =>
    match exec i s with
    | .next t => if i.isTx = true ∧ t.res ≠ .ok then none else execTxOk rest t
    | .fault _ => none
    | .refused _ => none

end Sys2Proof.Machine
end

