-- ==== Sys2Proof/Certificates/Slice0/Obligations.lean ====
section
/-! DEFINITION. The statements for the provers. Each docstring names the rules of spec/ the statement formalises. A
command's statement gives its next state whole, so it is also the command's frame: an element not written in
`{ s with … }` keeps its value, the buffers and both port fields among them. -/

open Sys2Proof Sys2Proof.Machine

/-! ## Encoding -/

/-- Every command is read back from its own word, with every operand at every value (30_encoding.md R70 to R73). -/
def Obligations.DecodeOfEncodeIsTheCommand : Prop := ∀ i : Instr, decode (encode i) = .ok i

/-- A word that decodes to a command is that command's word: no two words mean one command (30_encoding.md R72, R73). -/
def Obligations.EncodeOfDecodeIsTheWord : Prop :=
  ∀ (w : CommandWord) (i : Instr), decode w = .ok i → encode i = w

/-- R73: at most one row matches a word, the matching row decides the command, and a word that matches none is refused. -/
def Obligations.AtMostOneRowMatches : Prop :=
  ∀ w : CommandWord,
    (opcodeRows.filter fun r => w &&& r.mask == r.pattern).length ≤ 1 ∧
    (∀ r ∈ opcodeRows, w &&& r.mask = r.pattern → decode w = .ok (r.build w)) ∧
    ((∀ r ∈ opcodeRows, w &&& r.mask ≠ r.pattern) → ∃ e, decode w = .error e)

/-- R74: a word with an opcode outside the map or a 1 in a must-be-zero bit changes RES and SERR and nothing else, and
every other word is a command. -/
def Obligations.IllegalWordChangesOnlyResAndSerr : Prop :=
  (∀ (s : State) (w : CommandWord) (rest : List HostEvent),
    s.inbox = .command w :: rest → wordWellFormed w = false →
    step s = .next { s with inbox := rest, res := .illegal, serr := true }) ∧
  (∀ w : CommandWord, wordWellFormed w = true → ∃ i, decode w = .ok i)

/-- R75: the reserved opcodes are ILLEGAL, and no word but NOP's acts as a no-op. -/
def Obligations.ReservedOpcodesIllegalAndOnlyNopIdles : Prop :=
  (∀ (s : State) (w : CommandWord) (rest : List HostEvent),
    s.inbox = .command w :: rest →
    (0x04 ≤ (fieldOp w).toNat ∧ (fieldOp w).toNat ≤ 0x0F ∨
      0x12 ≤ (fieldOp w).toNat ∧ (fieldOp w).toNat ≤ 0x1F ∨
      0x25 ≤ (fieldOp w).toNat ∧ (fieldOp w).toNat ≤ 0x2F ∨
      0x34 ≤ (fieldOp w).toNat ∧ (fieldOp w).toNat ≤ 0x3F ∨
      0x44 ≤ (fieldOp w).toNat) →
    step s = .next { s with inbox := rest, res := .illegal, serr := true }) ∧
  (∀ w : CommandWord, (∀ s : State, takeCommand w s = .next { s with res := .ok }) → w = 0x0000000000000000#64)

/-- The four example words of R77, and one word of each other family from R72's patterns, decode to their commands. -/
def Obligations.SpecWordsDecode : Prop :=
  decode 0x3001000100080000#64 = .ok (.encRc 1#8 1#16 8#16) ∧
  decode 0x2001001000000000#64 = .ok (.txBegin 1#8 0x10#8) ∧
  decode 0x4201000100000000#64 = .ok (.decCheck 1#8 1#8) ∧
  decode 0x2300000000000000#64 = .ok .txEnd ∧
  decode 0x0200000800000000#64 = .ok (.setChcount 8#16) ∧
  decode 0x1131000000000000#64 = .ok (.crcByte 0x31#8) ∧
  decode 0x3201000100100001#64 = .ok (.encWmc 1#8 1#16 16#16 true)

/-! ## Steps and the ports -/

/-- The step takes the host's next input: a word that decodes to a command runs it on the state without that input; a word
that does not ends ILLEGAL; a read is answered; the reset pulse resets. With no input the state stays (log 2, the model's
choice; logs 1, 3 and 4 for the inputs). -/
def Obligations.StepTakesTheNextInput : Prop :=
  ∀ (s : State) (rest : List HostEvent),
    (∀ (w : CommandWord) (i : Instr), s.inbox = .command w :: rest → decode w = .ok i →
      step s = exec i { s with inbox := rest }) ∧
    (∀ (w : CommandWord) (e : Reject), s.inbox = .command w :: rest → decode w = .error e →
      step s = .next { s with inbox := rest, res := .illegal, serr := true }) ∧
    (∀ a : PortAddr, s.inbox = .read a :: rest →
      step s = .next { s with inbox := rest, reads := ⟨a, regRead a s⟩ :: s.reads }) ∧
    (s.inbox = .powerOnReset :: rest →
      step s = .next { State.reset with inbox := rest, reads := s.reads }) ∧
    (s.inbox = [] → step s = .next s)

/-- Every queued input is taken, one a step, and nothing ever stops the block (60_exceptions.md R224, R228,
70_reset_and_hazards.md R270 "every command eventually completes"). -/
def Obligations.EveryQueuedInputCompletes : Prop :=
  (∀ s : State, ∃ t, step s = .next t ∧ t.inbox = s.inbox.tail) ∧
  (∀ s : State, ∃ t, Host.Core.run Sys2Proof.core s.inbox.length s = .next t ∧ t.inbox = [])

/-- R53: any number of reads in any order change no element, each returns what `RegRead` gives on the unchanged state, and
reserved addresses and indices at or beyond the length return 0. The list `reads` of answers is the model's choice
(log 3). -/
def Obligations.ReadsChangeNothingAndNeverFault : Prop :=
  (∀ (s : State) (as : List PortAddr) (rest : List HostEvent),
    s.inbox = as.map .read ++ rest →
    Host.Core.run Sys2Proof.core as.length s =
      .next { s with inbox := rest, reads := (as.map fun a => ⟨a, regRead a s⟩).reverse ++ s.reads }) ∧
  (∀ (s : State) (a : PortAddr),
    (0x007 ≤ a.toNat ∧ a.toNat ≤ 0x0FF → regRead a s = 0x0000#16) ∧
    (0x300 ≤ a.toNat ∧ a.toNat ≤ 0x3FF → regRead a s = 0x0000#16) ∧
    (0x100 ≤ a.toNat ∧ a.toNat ≤ 0x1FF ∧ s.txbuf.length ≤ a.toNat - 0x100 → regRead a s = 0x0000#16) ∧
    (0x200 ≤ a.toNat ∧ a.toNat ≤ 0x2FF ∧ s.rxbuf.length ≤ a.toNat - 0x200 → regRead a s = 0x0000#16))

/-- R52: the register read port map, every address. -/
def Obligations.ReadPortMap : Prop :=
  ∀ s : State,
    regRead 0x000#10 s = s.status ∧
    regRead 0x001#10 s = s.crc ∧
    (s.txbuf.length ≤ 256 → (regRead 0x002#10 s).toNat = s.txbuf.length) ∧
    (s.rxbuf.length ≤ 256 → (regRead 0x003#10 s).toNat = s.rxbuf.length) ∧
    regRead 0x004#10 s = s.chcount ∧
    regRead 0x005#10 s = s.rxcrc ∧
    regRead 0x006#10 s = s.plen ∧
    (∀ a : PortAddr, 0x007 ≤ a.toNat → a.toNat ≤ 0x0FF → regRead a s = 0x0000#16) ∧
    (∀ i : Nat, i ≤ 255 → regRead (BitVec.ofNat 10 (0x100 + i)) s =
      if h : i < s.txbuf.length then (s.txbuf[i]).setWidth 16 else 0x0000#16) ∧
    (∀ i : Nat, i ≤ 255 → regRead (BitVec.ofNat 10 (0x200 + i)) s =
      if h : i < s.rxbuf.length then (s.rxbuf[i]).setWidth 16 else 0x0000#16) ∧
    (∀ a : PortAddr, 0x300 ≤ a.toNat → regRead a s = 0x0000#16)

/-- Reads among the commands do not change what the commands do, and each read sees exactly the commands before it
(20_memory.md R53, R61). -/
def Obligations.ReadsDoNotAffectCommands : Prop :=
  (∀ (s : State) (es : List HostEvent), ∃ t u : State,
    Host.Core.run Sys2Proof.core es.length { s with inbox := es } = .next t ∧
    Host.Core.run Sys2Proof.core (es.filter fun e => !e.isRead).length
      { s with inbox := es.filter fun e => !e.isRead } = .next u ∧
    u.reads = s.reads ∧ t = { u with reads := t.reads }) ∧
  (∀ (s : State) (before after : List HostEvent) (a : PortAddr), ∃ t : State,
    Host.Core.run Sys2Proof.core before.length { s with inbox := before ++ .read a :: after } = .next t ∧
    Host.Core.run Sys2Proof.core (before.length + 1) { s with inbox := before ++ .read a :: after } =
      .next { t with inbox := after, reads := ⟨a, regRead a t⟩ :: t.reads })

/-! ## STATUS and results -/

/-- The fields of STATUS as a host reads them at address 0x000 (10_state.md R24, R27), the codes of R220, and that RES
values 12 to 15 and TXSTATE value 3 never show. -/
def Obligations.StatusFieldsAndCodes : Prop :=
  (∀ s : State,
    (regRead 0x000#10 s).extractLsb' 0 4 = s.res.code ∧
    (regRead 0x000#10 s).getLsbD 4 = s.serr ∧
    (regRead 0x000#10 s).getLsbD 5 = s.rxovf ∧
    (regRead 0x000#10 s).extractLsb' 6 2 = s.txstate.code ∧
    (regRead 0x000#10 s).extractLsb' 8 8 = s.exc ∧
    ((regRead 0x000#10 s).extractLsb' 0 4).toNat ≤ 11 ∧
    (regRead 0x000#10 s).extractLsb' 6 2 ≠ 3#2) ∧
  [Result.ok, .crcMismatch, .addrMismatch, .exception, .funcMismatch, .shortFrame, .overflow, .echoMismatch, .range,
    .config, .sequence, .illegal].map (fun r => r.code.toNat) = List.range 12 ∧
  [TxState.idle, .opened, .sealed].map (fun x => x.code.toNat) = [0, 1, 2]

/-- R229: SERR, once set, is cleared by CLR_ERR, SOFT_RESET and reset only; a failure sets SERR, and a failure while SERR
is 1 leaves it 1; each command overwrites RES, so that no command depends on the RES before it. -/
def Obligations.SerrIsSticky : Prop :=
  (∀ (i : Instr) (s t : State), exec i s = .next t →
    t.serr = if i.clearsSerr then false else (s.serr || decide (t.res ≠ .ok))) ∧
  (∀ s t : State, step s = .next t → s.serr = true → t.serr = false →
    (∃ rest, s.inbox = .powerOnReset :: rest) ∨
    (∃ w rest, s.inbox = .command w :: rest ∧ (decode w = .ok .clrErr ∨ decode w = .ok .softReset))) ∧
  (∀ (i : Instr) (s : State) (r : Result), exec i { s with res := r } = exec i s)

/-- R221: a command ends only with the codes the table lists for it, and each listed code is one its mnemonic can end
with; and every command can also end ILLEGAL. -/
def Obligations.CommandsEndWithTheListedCodes : Prop :=
  (∀ (i : Instr) (s : State), ∃ t, exec i s = .next t ∧ t.res ∈ i.results) ∧
  (∀ (i : Instr) (code : Result), code ∈ i.results →
    ∃ (j : Instr) (s t : State),
      fieldOp (encode j) = fieldOp (encode i) ∧ exec j s = .next t ∧ t.res = code) ∧
  (∀ i : Instr, ∃ w : CommandWord, fieldOp w = fieldOp (encode i) ∧
    ∀ s : State, takeCommand w s = .next { s with res := .illegal, serr := true })

/-- Each element is written only by the commands its rule lists and by SOFT_RESET (10_state.md R22, R23, R26 to R30). The
last clause is the model's choice and no rule's: `inbox` and `reads` are the model's own fields (logs 1 and 3), and no
command touches them, SOFT_RESET neither (DESIGN CHOICE, log 4). -/
def Obligations.ElementsHaveOnlyTheirWriters : Prop :=
  ∀ (i : Instr) (s t : State), exec i s = .next t →
    (i.writesCrc = false → t.crc = s.crc) ∧
    (i.writesTx = false → t.txbuf = s.txbuf ∧ t.txstate = s.txstate) ∧
    (i.writesRx = false → t.rxbuf = s.rxbuf ∧ t.rxovf = s.rxovf) ∧
    (i.writesDecode = false → t.exc = s.exc ∧ t.plen = s.plen ∧ t.rxcrc = s.rxcrc) ∧
    (i.writesChcount = false → t.chcount = s.chcount) ∧
    t.inbox = s.inbox ∧ t.reads = s.reads

/-! ## Reset and invariants -/

/-- R33: every element after reset, and STATUS reads 0x0000. -/
def Obligations.ResetValues : Prop :=
  State.reset.crc = 0xFFFF#16 ∧ State.reset.txbuf = [] ∧ State.reset.txstate = .idle ∧ State.reset.rxbuf = [] ∧
  State.reset.rxovf = false ∧ State.reset.res = .ok ∧ State.reset.serr = false ∧ State.reset.exc = 0x00#8 ∧
  State.reset.chcount = 16#16 ∧ State.reset.rxcrc = 0xFFFF#16 ∧ State.reset.plen = 0#16 ∧
  regRead 0x000#10 State.reset = 0x0000#16 ∧
  (∀ s t : State, exec .softReset s = .next t → { t with inbox := [], reads := [] } = State.reset)

/-- R250: SOFT_RESET and the power-on reset input set every element to its reset value (the host's side of the ports stays,
log 4). -/
def Obligations.BothResetsSetEveryElement : Prop :=
  (∀ s : State, exec .softReset s =
    .next { crc := 0xFFFF#16, txbuf := [], txstate := .idle, rxbuf := [], rxovf := false, res := .ok, serr := false,
            exc := 0x00#8, chcount := 16#16, rxcrc := 0xFFFF#16, plen := 0#16, inbox := s.inbox, reads := s.reads }) ∧
  (∀ (s : State) (rest : List HostEvent), s.inbox = .powerOnReset :: rest → step s =
    .next { crc := 0xFFFF#16, txbuf := [], txstate := .idle, rxbuf := [], rxovf := false, res := .ok, serr := false,
            exc := 0x00#8, chcount := 16#16, rxcrc := 0xFFFF#16, plen := 0#16, inbox := rest, reads := s.reads })

/-- The invariant holds after reset (70_reset_and_hazards.md R253). -/
def Obligations.ResetMeetsTheInvariant : Prop := State.reset.Inv

/-- R25: every step keeps the transmit-side invariants, in every state that meets them. -/
def Obligations.EveryStepKeepsTxInvariants : Prop :=
  ∀ s t : State, s.TxInv → step s = .next t → t.TxInv

/-- Every step keeps the whole invariant: the transmit side (10_state.md R25), RXLEN, PLEN and RXOVF (R26, R30,
43_frame_rx.md R172), CHCOUNT never 0 (R28), a failed RES with SERR set (60_exceptions.md R224). -/
def Obligations.EveryStepKeepsTheInvariant : Prop :=
  ∀ s t : State, s.Inv → step s = .next t → t.Inv

/-! ## Block control -/

/-- R200: NOP. -/
def Obligations.NopSetsOnlyRes : Prop :=
  decode 0x0000000000000000#64 = .ok .nop ∧
  UnusedBitsEndIllegal 0x00#8 0x00FFFFFFFFFFFFFF#64 ∧
  ∀ s : State, exec .nop s = .next { s with res := .ok }

/-- R201: CLR_ERR. -/
def Obligations.ClrErrClearsSerrOnly : Prop :=
  decode 0x0100000000000000#64 = .ok .clrErr ∧
  UnusedBitsEndIllegal 0x01#8 0x00FFFFFFFFFFFFFF#64 ∧
  ∀ s : State, exec .clrErr s = .next { s with res := .ok, serr := false }

/-- R202: SET_CHCOUNT. -/
def Obligations.SetChcountRefusesZero : Prop :=
  (∀ b : Word, decode (0x02#8 ++ 0#8 ++ b ++ 0#32 : BitVec 64) = .ok (.setChcount b)) ∧
  UnusedBitsEndIllegal 0x02#8 0x00FF0000FFFFFFFF#64 ∧
  ∀ (b : Word) (s : State),
    (b = 0#16 → exec (.setChcount b) s = .next { s with res := .config, serr := true }) ∧
    (b ≠ 0#16 → exec (.setChcount b) s = .next { s with chcount := b, res := .ok })

/-- SOFT_RESET puts every element to its reset value (44_control.md R203). That the model's own fields `inbox` and `reads`
stay is the model's choice (DESIGN CHOICE, log 4). -/
def Obligations.SoftResetGivesTheResetState : Prop :=
  decode 0x0300000000000000#64 = .ok .softReset ∧
  UnusedBitsEndIllegal 0x03#8 0x00FFFFFFFFFFFFFF#64 ∧
  ∀ s : State, exec .softReset s = .next { State.reset with inbox := s.inbox, reads := s.reads }

/-! ## The CRC function and its commands -/

/-- R100, R101: one step is eight right shifts with 0xA001 after the byte enters at the low end; the CRC starts from 0xFFFF
and takes the bytes in order, with no final exclusive or. -/
def Obligations.CrcBitSerialForm : Prop :=
  (∀ (c : Word) (b : Byte), crcStep c b =
    (List.range 8).foldl (fun x _ => if x.getLsbD 0 then (x >>> 1) ^^^ 0xA001#16 else x >>> 1) (c ^^^ b.setWidth 16)) ∧
  crc16 [] = 0xFFFF#16 ∧
  (∀ (m : List Byte) (b : Byte), crc16 (m ++ [b]) = crcStep (crc16 m) b)

/-- R102: the table-driven form, with the table as the spec prints it, is the bit-shift form. -/
def Obligations.TableDrivenCrcIsTheBitSerialCrc : Prop :=
  (∀ (c : Word) (b : Byte), crcStep c b = crcStepTable c b) ∧
  (∀ i : Nat, i ≤ 255 → crcTable[i]? = some (crcStep 0x0000#16 (BitVec.ofNat 8 i))) ∧
  crcTable.length = 256

/-- R103: a sequence followed by its CRC, low byte first, has CRC 0, and followed by any other word it has not. -/
def Obligations.CrcResidue : Prop :=
  ∀ m : List Byte,
    crc16 (m ++ [lo8 (crc16 m), hi8 (crc16 m)]) = 0x0000#16 ∧
    ∀ v : Word, v ≠ crc16 m → crc16 (m ++ [lo8 v, hi8 v]) ≠ 0x0000#16

/-- R104: CRC_INIT. -/
def Obligations.CrcInitLoadsInitUnlessOpen : Prop :=
  decode 0x1000000000000000#64 = .ok .crcInit ∧
  UnusedBitsEndIllegal 0x10#8 0x00FFFFFFFFFFFFFF#64 ∧
  ∀ s : State,
    (s.txstate = .opened → exec .crcInit s = .next { s with res := .sequence, serr := true }) ∧
    (s.txstate ≠ .opened → exec .crcInit s = .next { s with crc := 0xFFFF#16, res := .ok })

/-- R105: CRC_BYTE. -/
def Obligations.CrcByteFeedsOneByteUnlessOpen : Prop :=
  (∀ a : Byte, decode (0x11#8 ++ a ++ 0#48 : BitVec 64) = .ok (.crcByte a)) ∧
  UnusedBitsEndIllegal 0x11#8 0x0000FFFFFFFFFFFF#64 ∧
  ∀ (a : Byte) (s : State),
    (s.txstate = .opened → exec (.crcByte a) s = .next { s with res := .sequence, serr := true }) ∧
    (s.txstate ≠ .opened → exec (.crcByte a) s = .next { s with crc := crcStep s.crc a, res := .ok })

/-- R106: CRC_INIT and a CRC_BYTE for each byte of a sequence leave its CRC in the CRC register, read at 0x001. -/
def Obligations.CrcOverComputesTheCrc : Prop :=
  ∀ (m : List Byte) (s : State), s.txstate ≠ .opened →
    execAll (.crcInit :: m.map .crcByte) s = .next { s with crc := crc16 m, res := .ok } ∧
    regRead 0x001#10 { s with crc := crc16 m, res := .ok } = crc16 m

/-! ## Request frame assembly -/

/-- R121: TX_BEGIN. -/
def Obligations.TxBeginStartsAFrame : Prop :=
  (∀ a fc : Byte, decode (0x20#8 ++ a ++ 0#8 ++ fc ++ 0#32 : BitVec 64) = .ok (.txBegin a fc)) ∧
  UnusedBitsEndIllegal 0x20#8 0x0000FF00FFFFFFFF#64 ∧
  ∀ (a fc : Byte) (s : State),
    (247 < a.toNat → exec (.txBegin a fc) s =
      .next { s with txbuf := [], txstate := .idle, res := .config, serr := true }) ∧
    (a.toNat ≤ 247 → fc = 0x00#8 ∨ fc.getLsbD 7 = true → exec (.txBegin a fc) s =
      .next { s with txbuf := [], txstate := .idle, res := .range, serr := true }) ∧
    (a.toNat ≤ 247 → fc ≠ 0x00#8 → fc.getLsbD 7 = false → exec (.txBegin a fc) s =
      .next { s with txbuf := [a, fc], txstate := .opened, crc := crc16 [a, fc], res := .ok })

/-- R122: TX_BYTE. -/
def Obligations.TxByteAppendsOneByte : Prop :=
  (∀ a : Byte, decode (0x21#8 ++ a ++ 0#48 : BitVec 64) = .ok (.txByte a)) ∧
  UnusedBitsEndIllegal 0x21#8 0x0000FFFFFFFFFFFF#64 ∧
  ∀ (a : Byte) (s : State),
    (s.txstate ≠ .opened → exec (.txByte a) s = .next { s with res := .sequence, serr := true }) ∧
    (s.txstate = .opened → 254 < s.txbuf.length + 1 →
      exec (.txByte a) s = .next { s with res := .overflow, serr := true }) ∧
    (s.txstate = .opened → s.txbuf.length + 1 ≤ 254 →
      exec (.txByte a) s = .next { s with txbuf := s.txbuf ++ [a], crc := crcStep s.crc a, res := .ok })

/-- R123: TX_U16, high byte first. -/
def Obligations.TxU16AppendsHighByteFirst : Prop :=
  (∀ b : Word, decode (0x22#8 ++ 0#8 ++ b ++ 0#32 : BitVec 64) = .ok (.txU16 b)) ∧
  UnusedBitsEndIllegal 0x22#8 0x00FF0000FFFFFFFF#64 ∧
  ∀ (b : Word) (s : State),
    (s.txstate ≠ .opened → exec (.txU16 b) s = .next { s with res := .sequence, serr := true }) ∧
    (s.txstate = .opened → 254 < s.txbuf.length + 2 →
      exec (.txU16 b) s = .next { s with res := .overflow, serr := true }) ∧
    (s.txstate = .opened → s.txbuf.length + 2 ≤ 254 → exec (.txU16 b) s =
      .next { s with txbuf := s.txbuf ++ [b.extractLsb' 8 8, b.extractLsb' 0 8],
                     crc := crcStep (crcStep s.crc (b.extractLsb' 8 8)) (b.extractLsb' 0 8), res := .ok })

/-- R124: TX_END. -/
def Obligations.TxEndSealsTheFrame : Prop :=
  decode 0x2300000000000000#64 = .ok .txEnd ∧
  UnusedBitsEndIllegal 0x23#8 0x00FFFFFFFFFFFFFF#64 ∧
  ∀ s : State,
    (s.txstate ≠ .opened → exec .txEnd s = .next { s with res := .sequence, serr := true }) ∧
    (s.txstate = .opened → exec .txEnd s =
      .next { s with txbuf := s.txbuf ++ [s.crc.extractLsb' 0 8, s.crc.extractLsb' 8 8], txstate := .sealed,
                     res := .ok })

/-- R125: TX_CLEAR. -/
def Obligations.TxClearDropsTheFrame : Prop :=
  decode 0x2400000000000000#64 = .ok .txClear ∧
  UnusedBitsEndIllegal 0x24#8 0x00FFFFFFFFFFFFFF#64 ∧
  ∀ s : State, exec .txClear s = .next { s with txbuf := [], txstate := .idle, res := .ok }

/-- R126: after TX_BEGIN, commands that append the payload, and TX_END, all OK, TXBUF is exactly the frame and sealed,
whatever commands that are no TX command and no encoder stand between, and however those end. With a legal address and
function code, a payload that fits and no SOFT_RESET between, the TX commands are all OK. -/
def Obligations.AssemblyProducesTheFrame : Prop :=
  ∀ (a f : Byte) (is : List Instr) (s : State),
    (∀ i ∈ is, i.appendsPayload = true ∨ (i.isTx = false ∧ i.isEncoder = false)) →
    (∀ t, execTxOk (.txBegin a f :: is ++ [.txEnd]) s = some t →
      t.txbuf = [a, f] ++ is.flatMap Instr.payload ++
        [lo8 (crc16 ([a, f] ++ is.flatMap Instr.payload)), hi8 (crc16 ([a, f] ++ is.flatMap Instr.payload))] ∧
      t.txbuf.length = (is.flatMap Instr.payload).length + 4 ∧ t.txstate = .sealed ∧
      t.crc = crc16 ([a, f] ++ is.flatMap Instr.payload) ∧ t.res = .ok) ∧
    (a.toNat ≤ 247 → 1 ≤ f.toNat → f.toNat ≤ 0x7F → (is.flatMap Instr.payload).length ≤ 252 → .softReset ∉ is →
      (execTxOk (.txBegin a f :: is ++ [.txEnd]) s).isSome = true)

/-- An unbroken assembly, TX_BEGIN, any mix of TX_BYTE and TX_U16, and TX_END, all OK, leaves exactly the frame and changes
nothing else; and the commands are all OK when the address and function code are legal and the payload fits (41_frame_tx.md
R120 to R126). -/
def Obligations.UnbrokenAssemblyChangesOnlyTheFrame : Prop :=
  ∀ (a f : Byte) (items : List PayloadItem) (s : State),
    (∀ t, execAllOk (.txBegin a f :: items.map PayloadItem.command ++ [.txEnd]) s = some t →
      t = { s with
        txbuf := [a, f] ++ items.flatMap PayloadItem.bytes ++
          [lo8 (crc16 ([a, f] ++ items.flatMap PayloadItem.bytes)),
            hi8 (crc16 ([a, f] ++ items.flatMap PayloadItem.bytes))],
        crc := crc16 ([a, f] ++ items.flatMap PayloadItem.bytes), txstate := .sealed, res := .ok }) ∧
    (a.toNat ≤ 247 → 1 ≤ f.toNat → f.toNat ≤ 0x7F → (items.flatMap PayloadItem.bytes).length ≤ 252 →
      (execAllOk (.txBegin a f :: items.map PayloadItem.command ++ [.txEnd]) s).isSome = true)

/-- R127: a payload holds 0 to 252 bytes and a frame 4 to 256: exactly those assemble. -/
def Obligations.PayloadCapacity : Prop :=
  ∀ (a f : Byte) (p : List Byte) (s : State), a.toNat ≤ 247 → 1 ≤ f.toNat → f.toNat ≤ 0x7F →
    ((execAllOk (txFrame a f p) s).isSome = true ↔ p.length ≤ 252) ∧
    (∀ t, execAllOk (txFrame a f p) s = some t →
      t.txbuf.length = p.length + 4 ∧ 4 ≤ t.txbuf.length ∧ t.txbuf.length ≤ 256)

/-- The pseudo-command ENC_WMR_N builds the general write-multiple-registers frame (30_encoding.md R78), and for one value
it leaves what ENC_WMR leaves (42_encoders.md R147). -/
def Obligations.EncWmrNBuildsTheRegisterFrame : Prop :=
  (∀ (a : Byte) (start : Word) (vs : List Word) (s : State),
    a.toNat ≤ 247 → 1 ≤ vs.length → vs.length ≤ 123 →
    execAll (encWmrN a start vs) s =
      .next { s with
        txbuf := withCrc ([a, 0x10#8, hi8 start, lo8 start, 0x00#8, BitVec.ofNat 8 vs.length,
          BitVec.ofNat 8 (2 * vs.length)] ++ vs.flatMap fun v => [hi8 v, lo8 v]),
        crc := crc16 ([a, 0x10#8, hi8 start, lo8 start, 0x00#8, BitVec.ofNat 8 vs.length,
          BitVec.ofNat 8 (2 * vs.length)] ++ vs.flatMap fun v => [hi8 v, lo8 v]),
        txstate := .sealed, res := .ok }) ∧
  (∀ (a : Byte) (start v : Word) (s : State), a.toNat ≤ 247 →
    execAll (encWmrN a start [v]) s = exec (.encWmr a start v) s)

/-! ## Encoders -/

/-- R140: an encoder drops the old frame even when it fails; a bad address is CONFIG whatever the other operands; on CONFIG
or RANGE no frame is left and CRC is unchanged; on OK the frame is sealed and CRC holds the CRC of its body; RXBUF and the
other elements stay. The operand checks are the encoders' own (R144 to R147). -/
def Obligations.EncodersDropTheOldFrame : Prop :=
  ∀ (i : Instr) (s : State), i.isEncoder = true → ∃ t, exec i s = .next t ∧
    t = { s with txbuf := t.txbuf, txstate := t.txstate, crc := t.crc, res := t.res, serr := t.serr } ∧
    (247 < (fieldA (encode i)).toNat ↔ t.res = .config) ∧
    ((t.res = .config ∨ t.res = .range) ∧ t.txbuf = [] ∧ t.txstate = .idle ∧ t.crc = s.crc ∨
      t.res = .ok ∧ t.txstate = .sealed ∧ 4 ≤ t.txbuf.length ∧
        t.crc = crc16 (t.txbuf.take (t.txbuf.length - 2)) ∧
        t.txbuf.drop (t.txbuf.length - 2) = [lo8 t.crc, hi8 t.crc])

/-- R142: the wire offset of a valid channel is `ch - 1`, with no wrap-around, and at most 65534. -/
def Obligations.WireOffsetDoesNotWrap : Prop :=
  ∀ count ch : Word, chanOk count ch.toNat = true →
    (wireOffset ch).toNat = ch.toNat - 1 ∧ (wireOffset ch).toNat ≤ 65534

/-- R144: ENC_RC. The operand checks are on unbounded integers (R141). -/
def Obligations.EncRcBuildsReadCoils : Prop :=
  (∀ (a : Byte) (b c : Word), decode (0x30#8 ++ a ++ b ++ c ++ 0#16 : BitVec 64) = .ok (.encRc a b c)) ∧
  UnusedBitsEndIllegal 0x30#8 0x000000000000FFFF#64 ∧
  ∀ (a : Byte) (b c : Word) (s : State),
    (247 < a.toNat → exec (.encRc a b c) s =
      .next { s with txbuf := [], txstate := .idle, res := .config, serr := true }) ∧
    (a.toNat ≤ 247 → (b.toNat = 0 ∨ s.chcount.toNat < b.toNat ∨ c.toNat = 0 ∨ 2000 < c.toNat ∨
        s.chcount.toNat + 1 < b.toNat + c.toNat) →
      exec (.encRc a b c) s = .next { s with txbuf := [], txstate := .idle, res := .range, serr := true }) ∧
    (a.toNat ≤ 247 → 1 ≤ b.toNat → b.toNat ≤ s.chcount.toNat → 1 ≤ c.toNat → c.toNat ≤ 2000 →
        b.toNat + c.toNat ≤ s.chcount.toNat + 1 →
      exec (.encRc a b c) s = .next { s with
        txbuf := [a, 0x01#8, hi8 (b - 1#16), lo8 (b - 1#16), hi8 c, lo8 c,
          lo8 (crc16 [a, 0x01#8, hi8 (b - 1#16), lo8 (b - 1#16), hi8 c, lo8 c]),
          hi8 (crc16 [a, 0x01#8, hi8 (b - 1#16), lo8 (b - 1#16), hi8 c, lo8 c])],
        crc := crc16 [a, 0x01#8, hi8 (b - 1#16), lo8 (b - 1#16), hi8 c, lo8 c],
        txstate := .sealed, res := .ok })

/-- R145: ENC_WSC. -/
def Obligations.EncWscBuildsWriteSingleCoil : Prop :=
  (∀ (a : Byte) (b : Word) (on : Bool),
    decode (0x31#8 ++ a ++ b ++ 0#15 ++ BitVec.ofBool on ++ 0#16 : BitVec 64) = .ok (.encWsc a b on)) ∧
  UnusedBitsEndIllegal 0x31#8 0x00000000FFFEFFFF#64 ∧
  ∀ (a : Byte) (b : Word) (on : Bool) (s : State),
    (247 < a.toNat → exec (.encWsc a b on) s =
      .next { s with txbuf := [], txstate := .idle, res := .config, serr := true }) ∧
    (a.toNat ≤ 247 → (b.toNat = 0 ∨ s.chcount.toNat < b.toNat) →
      exec (.encWsc a b on) s = .next { s with txbuf := [], txstate := .idle, res := .range, serr := true }) ∧
    (a.toNat ≤ 247 → 1 ≤ b.toNat → b.toNat ≤ s.chcount.toNat →
      exec (.encWsc a b on) s = .next { s with
        txbuf := [a, 0x05#8, hi8 (b - 1#16), lo8 (b - 1#16), if on then 0xFF#8 else 0x00#8, 0x00#8,
          lo8 (crc16 [a, 0x05#8, hi8 (b - 1#16), lo8 (b - 1#16), if on then 0xFF#8 else 0x00#8, 0x00#8]),
          hi8 (crc16 [a, 0x05#8, hi8 (b - 1#16), lo8 (b - 1#16), if on then 0xFF#8 else 0x00#8, 0x00#8])],
        crc := crc16 [a, 0x05#8, hi8 (b - 1#16), lo8 (b - 1#16), if on then 0xFF#8 else 0x00#8, 0x00#8],
        txstate := .sealed, res := .ok })

/-- R146: ENC_WMC. The payload is the offset, the quantity, the byte count and the data bytes. -/
def Obligations.EncWmcBuildsWriteMultipleCoils : Prop :=
  (∀ (a : Byte) (b c : Word) (on : Bool),
    decode (0x32#8 ++ a ++ b ++ c ++ 0#15 ++ BitVec.ofBool on : BitVec 64) = .ok (.encWmc a b c on)) ∧
  UnusedBitsEndIllegal 0x32#8 0x000000000000FFFE#64 ∧
  ∀ (a : Byte) (b c : Word) (on : Bool) (s : State),
    (247 < a.toNat → exec (.encWmc a b c on) s =
      .next { s with txbuf := [], txstate := .idle, res := .config, serr := true }) ∧
    (a.toNat ≤ 247 → (b.toNat = 0 ∨ s.chcount.toNat < b.toNat ∨ c.toNat = 0 ∨ 1968 < c.toNat ∨
        s.chcount.toNat + 1 < b.toNat + c.toNat) →
      exec (.encWmc a b c on) s = .next { s with txbuf := [], txstate := .idle, res := .range, serr := true }) ∧
    (a.toNat ≤ 247 → 1 ≤ b.toNat → b.toNat ≤ s.chcount.toNat → 1 ≤ c.toNat → c.toNat ≤ 1968 →
        b.toNat + c.toNat ≤ s.chcount.toNat + 1 →
      ∀ body : List Byte,
      body = [a, 0x0F#8, hi8 (b - 1#16), lo8 (b - 1#16), hi8 c, lo8 c, BitVec.ofNat 8 ((c.toNat + 7) / 8)] ++
        (List.range ((c.toNat + 7) / 8)).map (fun j =>
          if on then BitVec.ofNat 8 (2 ^ (min 8 (c.toNat - 8 * j)) - 1) else 0x00#8) →
      exec (.encWmc a b c on) s = .next { s with
        txbuf := body ++ [lo8 (crc16 body), hi8 (crc16 body)], crc := crc16 body, txstate := .sealed, res := .ok })

/-- In the data bytes of an ENC_WMC frame every coil of the span has the command's state, coil `k` in bit `k mod 8` of data
byte `k div 8`, and every unused bit of the last byte is 0 (42_encoders.md R146, with D17). The data bytes start at index 7
of the frame (R146). -/
def Obligations.EncWmcSetsEveryCoilOfTheSpan : Prop :=
  ∀ (a : Byte) (b c : Word) (on : Bool) (s t : State),
    exec (.encWmc a b c on) s = .next t → t.res = .ok →
    t.txbuf.length = 9 + (c.toNat + 7) / 8 ∧
    ∀ k : Nat, k < 8 * ((c.toNat + 7) / 8) →
      (byteAt t.txbuf (7 + k / 8)).getLsbD (k % 8) = (on && decide (k < c.toNat))

/-- R147: ENC_WMR. There is no RANGE outcome: the register address and the value are not checked (R148). -/
def Obligations.EncWmrBuildsWriteMultipleRegisters : Prop :=
  (∀ (a : Byte) (b c : Word), decode (0x33#8 ++ a ++ b ++ c ++ 0#16 : BitVec 64) = .ok (.encWmr a b c)) ∧
  UnusedBitsEndIllegal 0x33#8 0x000000000000FFFF#64 ∧
  ∀ (a : Byte) (b c : Word) (s : State),
    (247 < a.toNat → exec (.encWmr a b c) s =
      .next { s with txbuf := [], txstate := .idle, res := .config, serr := true }) ∧
    (a.toNat ≤ 247 → exec (.encWmr a b c) s = .next { s with
        txbuf := [a, 0x10#8, hi8 b, lo8 b, 0x00#8, 0x01#8, 0x02#8, hi8 c, lo8 c,
          lo8 (crc16 [a, 0x10#8, hi8 b, lo8 b, 0x00#8, 0x01#8, 0x02#8, hi8 c, lo8 c]),
          hi8 (crc16 [a, 0x10#8, hi8 b, lo8 b, 0x00#8, 0x01#8, 0x02#8, hi8 c, lo8 c])],
        crc := crc16 [a, 0x10#8, hi8 b, lo8 b, 0x00#8, 0x01#8, 0x02#8, hi8 c, lo8 c],
        txstate := .sealed, res := .ok })

/-! ## Response capture and decoding -/

/-- R171: RX_CLEAR. -/
def Obligations.RxClearEmptiesTheBuffer : Prop :=
  decode 0x4000000000000000#64 = .ok .rxClear ∧
  UnusedBitsEndIllegal 0x40#8 0x00FFFFFFFFFFFFFF#64 ∧
  ∀ s : State, exec .rxClear s = .next { s with rxbuf := [], rxovf := false, res := .ok }

/-- R172: RX_BYTE. -/
def Obligations.RxByteAppendsOrOverflows : Prop :=
  (∀ a : Byte, decode (0x41#8 ++ a ++ 0#48 : BitVec 64) = .ok (.rxByte a)) ∧
  UnusedBitsEndIllegal 0x41#8 0x0000FFFFFFFFFFFF#64 ∧
  ∀ (a : Byte) (s : State),
    (s.rxbuf.length = 256 → exec (.rxByte a) s = .next { s with rxovf := true, res := .overflow, serr := true }) ∧
    (s.rxbuf.length ≠ 256 → exec (.rxByte a) s = .next { s with rxbuf := s.rxbuf ++ [a], res := .ok })

/-- The pseudo-command RX_FRAME leaves exactly the bytes passed in, when they fit (30_encoding.md R78, 43_frame_rx.md R171,
R172); one byte too many sets RXOVF and is dropped. -/
def Obligations.RxFrameCapturesTheBytes : Prop :=
  ∀ (m : List Byte) (s : State),
    (m.length ≤ 256 → execAll (rxFrame m) s = .next { s with rxbuf := m, rxovf := false, res := .ok }) ∧
    (∀ b : Byte, m.length = 256 → execAll (rxFrame (m ++ [b])) s =
      .next { s with rxbuf := m, rxovf := true, res := .overflow, serr := true })

/-- R175, R176: DEC_CHECK. A frame of at least four bytes is written as its address `x`, function code `y`, payload `p` and
last two bytes `l`, `h`; its embedded CRC is `h` above `l`. -/
def Obligations.DecCheckReportsTheFirstFailedCheck : Prop :=
  (∀ a fc : Byte, decode (0x42#8 ++ a ++ 0#8 ++ fc ++ 0#32 : BitVec 64) = .ok (.decCheck a fc)) ∧
  UnusedBitsEndIllegal 0x42#8 0x0000FF00FFFFFFFF#64 ∧
  ∀ (a fc : Byte) (s : State),
    (s.rxovf = true → exec (.decCheck a fc) s =
      .next { s with exc := 0x00#8, plen := 0#16, res := .overflow, serr := true }) ∧
    (s.rxovf = false → s.rxbuf.length < 4 → exec (.decCheck a fc) s =
      .next { s with exc := 0x00#8, plen := 0#16, res := .shortFrame, serr := true }) ∧
    ∀ (x y : Byte) (p : List Byte) (l h : Byte), s.rxovf = false → s.rxbuf = [x, y] ++ p ++ [l, h] →
      (crc16 ([x, y] ++ p) ≠ (h ++ l : BitVec 16) → exec (.decCheck a fc) s =
        .next { s with exc := 0x00#8, plen := 0#16, rxcrc := crc16 ([x, y] ++ p), res := .crcMismatch,
                       serr := true }) ∧
      (crc16 ([x, y] ++ p) = (h ++ l : BitVec 16) →
        (x ≠ a → exec (.decCheck a fc) s =
          .next { s with exc := 0x00#8, plen := 0#16, rxcrc := crc16 ([x, y] ++ p), res := .addrMismatch,
                         serr := true }) ∧
        (x = a → y.getLsbD 7 = true → p = [] → exec (.decCheck a fc) s =
          .next { s with exc := 0x00#8, plen := 0#16, rxcrc := crc16 ([x, y] ++ p), res := .shortFrame,
                         serr := true }) ∧
        (∀ (e : Byte) (q : List Byte), x = a → y.getLsbD 7 = true → p = e :: q → exec (.decCheck a fc) s =
          .next { s with exc := e, plen := BitVec.ofNat 16 p.length, rxcrc := crc16 ([x, y] ++ p), res := .exception,
                         serr := true }) ∧
        (x = a → y.getLsbD 7 = false → y ≠ fc → exec (.decCheck a fc) s =
          .next { s with exc := 0x00#8, plen := BitVec.ofNat 16 p.length, rxcrc := crc16 ([x, y] ++ p),
                         res := .funcMismatch, serr := true }) ∧
        (x = a → y.getLsbD 7 = false → y = fc → exec (.decCheck a fc) s =
          .next { s with exc := 0x00#8, plen := BitVec.ofNat 16 p.length, rxcrc := crc16 ([x, y] ++ p), res := .ok }))

/-- R177: DEC_ECHO is DEC_CHECK with the sealed request's address and function code, and then the comparison of the whole
response with the request. A sealed request has its address and function code (10_state.md R25). -/
def Obligations.DecEchoChecksTheEcho : Prop :=
  decode 0x4300000000000000#64 = .ok .decEcho ∧
  UnusedBitsEndIllegal 0x43#8 0x00FFFFFFFFFFFFFF#64 ∧
  ∀ s : State,
    (s.txstate ≠ .sealed → exec .decEcho s = .next { s with res := .sequence, serr := true }) ∧
    ∀ (a fc : Byte) (rest : List Byte), s.txstate = .sealed → s.txbuf = a :: fc :: rest →
      ∃ t : State, exec (.decCheck a fc) s = .next t ∧
        (t.res = .ok → s.rxbuf ≠ s.txbuf → exec .decEcho s = .next { t with res := .echoMismatch, serr := true }) ∧
        (t.res = .ok → s.rxbuf = s.txbuf → exec .decEcho s = .next t) ∧
        (t.res ≠ .ok → exec .decEcho s = .next t)

/-- The echo of a sealed request is accepted: DEC_ECHO ends OK, PLEN is the payload's length and RXCRC the frame's CRC
(43_frame_rx.md R177, with the invariant of 10_state.md R25 for the sealed frame). -/
def Obligations.TrueEchoIsAccepted : Prop :=
  ∀ s : State, s.TxInv → s.txstate = .sealed → s.rxovf = false → s.rxbuf = s.txbuf →
    exec .decEcho s = .next { s with
      exc := 0x00#8, plen := BitVec.ofNat 16 (s.txbuf.length - 4),
      rxcrc := crc16 (s.txbuf.take (s.txbuf.length - 2)), res := .ok }

/-- R54: a frame whose body is `m` ends with the low then the high byte of its CRC, whoever builds it, and a decoder takes
the last byte as the high byte. -/
def Obligations.CrcIsLowByteFirst : Prop :=
  (∀ s : State, s.TxInv → s.txstate = .opened → ∃ t, exec .txEnd s = .next t ∧
    t.txbuf = s.txbuf ++ [lo8 (crc16 s.txbuf), hi8 (crc16 s.txbuf)]) ∧
  (∀ (i : Instr) (s t : State), i.isEncoder = true → exec i s = .next t → t.res = .ok →
    ∃ m, t.txbuf = m ++ [lo8 (crc16 m), hi8 (crc16 m)]) ∧
  (∀ (m : List Byte) (l h : Byte), embeddedCrc (m ++ [l, h]) = (l.setWidth 16 ||| (h.setWidth 16 <<< 8)))

/-- R178: after a decode that ends OK the payload is RXBUF[2..2+PLEN), read at 0x202 onwards; after EXCEPTION the code is
RXBUF[2]; after FUNC_MISMATCH and ECHO_MISMATCH PLEN is RXLEN - 4; after any other result PLEN and EXC are 0. (A DEC_ECHO
that ends SEQUENCE runs no decode, R177.) -/
def Obligations.PayloadSlice : Prop :=
  ∀ (i : Instr) (s : State), i.isDecode = true → s.rxbuf.length ≤ 256 →
    ∃ t, exec i s = .next t ∧
      (t.res = .ok → 4 ≤ s.rxbuf.length ∧ t.plen.toNat = s.rxbuf.length - 4 ∧ t.exc = 0x00#8 ∧
        ∀ k : Nat, k < t.plen.toNat →
          some (regRead (BitVec.ofNat 10 (0x202 + k)) t) = (s.rxbuf[2 + k]?).map (·.setWidth 16)) ∧
      (t.res = .exception → s.rxbuf[2]? = some t.exc ∧ (regRead 0x000#10 t).extractLsb' 8 8 = t.exc) ∧
      (t.res = .funcMismatch ∨ t.res = .echoMismatch → t.plen.toNat = s.rxbuf.length - 4 ∧ t.exc = 0x00#8) ∧
      (t.res = .crcMismatch ∨ t.res = .addrMismatch ∨ t.res = .shortFrame ∨ t.res = .overflow →
        t.plen = 0#16 ∧ t.exc = 0x00#8)

/-- R180: changing the last two bytes of a frame that decodes OK, by DEC_CHECK or by DEC_ECHO, to any other pair gives
CRC_MISMATCH. -/
def Obligations.ChangedCrcBytesAreCaught : Prop :=
  ∀ (i : Instr) (s t : State) (m : List Byte) (l h l' h' : Byte), i.isDecode = true →
    s.rxbuf = m ++ [l, h] → exec i s = .next t → t.res = .ok → (l' ≠ l ∨ h' ≠ h) →
    ∃ u, exec i { s with rxbuf := m ++ [l', h'] } = .next u ∧ u.res = .crcMismatch

/-- A well-formed response to a request decodes OK and gives its payload back (00_scope.md R13, 43_frame_rx.md R175, R176):
what any board's answer of 42_encoders.md R149 needs. -/
def Obligations.WellFormedResponseDecodesOk : Prop :=
  ∀ (a fc : Byte) (p : List Byte) (s : State), fc.getLsbD 7 = false → p.length ≤ 252 →
    s.rxbuf = withCrc ([a, fc] ++ p) → s.rxovf = false →
    ∃ t, exec (.decCheck a fc) s = .next t ∧ t.res = .ok ∧ t.plen.toNat = p.length ∧
      (s.rxbuf.drop 2).take t.plen.toNat = p

/-- Every frame the host may transmit (70_reset_and_hazards.md R262), whatever the last command's result, has a legal
address and function code, 4 to 256 bytes, and CRC 0 over the whole (10_state.md R25, 40_crc.md R103), and the host reads
its bytes in index order at 0x100 onwards (20_memory.md R52). -/
def Obligations.TransmittableFrameIsSound : Prop :=
  ∀ (s t : State) (m : List Byte), s.TxInv → step s = .next t → t.requestToSend = some m →
    4 ≤ m.length ∧ m.length ≤ 256 ∧ crc16 m = 0x0000#16 ∧
    (∃ a fc rest, m = a :: fc :: rest ∧ a.toNat ≤ 247 ∧ 1 ≤ fc.toNat ∧ fc.toNat ≤ 127) ∧
    (regRead 0x002#10 t).toNat = m.length ∧
    ∀ k : Nat, k < m.length →
      some (regRead (BitVec.ofNat 10 (0x100 + k)) t) = (m[k]?).map (·.setWidth 16)

/-- The other half of R262's condition: the command that built a sealed frame was TX_END or an encoder and ended OK
(41_frame_tx.md R124, 42_encoders.md R140). One step: a step that leaves a sealed frame is such a command, or the frame was
there and is unchanged. A run: from a state without a sealed frame, the frame at the end was built on the way by such a
command. -/
def Obligations.SealedFrameWasBuiltOk : Prop :=
  (∀ s t : State, step s = .next t → t.mayTransmit = true →
    (s.mayTransmit = true ∧ t.txbuf = s.txbuf) ∨
    (t.res = .ok ∧ ∃ w rest i, s.inbox = .command w :: rest ∧ decode w = .ok i ∧ (i = .txEnd ∨ i.isEncoder = true))) ∧
  (∀ (n : Nat) (s t : State), s.mayTransmit = false → Host.Core.run Sys2Proof.core n s = .next t →
    t.mayTransmit = true →
    ∃ (k : Nat) (u v : State), k < n ∧ Host.Core.run Sys2Proof.core k s = .next u ∧ step u = .next v ∧
      Host.Core.run Sys2Proof.core (n - k - 1) v = .next t ∧
      (∃ w rest i, u.inbox = .command w :: rest ∧ decode w = .ok i ∧ (i = .txEnd ∨ i.isEncoder = true)) ∧
      v.res = .ok ∧ v.mayTransmit = true ∧ v.txbuf = t.txbuf)
end

