-- ==== Sys2Proof/Laws/State.lean ====
section
/-! SUPPORT. What each named state update does to each field of State. -/

namespace Sys2Proof.Machine

/-! ## `record` -/

theorem record_ok (s : State) : record .ok s = { s with res := .ok } := rfl

theorem record_of_ne_ok {code : Result} (h : code ≠ .ok) (s : State) :
    record code s = { s with res := code, serr := true } := by
  simp [record, h]

@[simp] theorem record_crc (code : Result) (s : State) : (record code s).crc = s.crc := by
  unfold record; split <;> simp_all
@[simp] theorem record_txbuf (code : Result) (s : State) : (record code s).txbuf = s.txbuf := by
  unfold record; split <;> simp_all
@[simp] theorem record_txstate (code : Result) (s : State) : (record code s).txstate = s.txstate := by
  unfold record; split <;> simp_all
@[simp] theorem record_rxbuf (code : Result) (s : State) : (record code s).rxbuf = s.rxbuf := by
  unfold record; split <;> simp_all
@[simp] theorem record_rxovf (code : Result) (s : State) : (record code s).rxovf = s.rxovf := by
  unfold record; split <;> simp_all
@[simp] theorem record_res (code : Result) (s : State) : (record code s).res = code := by
  unfold record; split <;> simp_all
@[simp] theorem record_serr (code : Result) (s : State) : (record code s).serr = (s.serr || decide (code ≠ .ok)) := by
  unfold record; split <;> simp_all
@[simp] theorem record_exc (code : Result) (s : State) : (record code s).exc = s.exc := by
  unfold record; split <;> simp_all
@[simp] theorem record_chcount (code : Result) (s : State) : (record code s).chcount = s.chcount := by
  unfold record; split <;> simp_all
@[simp] theorem record_rxcrc (code : Result) (s : State) : (record code s).rxcrc = s.rxcrc := by
  unfold record; split <;> simp_all
@[simp] theorem record_plen (code : Result) (s : State) : (record code s).plen = s.plen := by
  unfold record; split <;> simp_all
@[simp] theorem record_inbox (code : Result) (s : State) : (record code s).inbox = s.inbox := by
  unfold record; split <;> simp_all
@[simp] theorem record_reads (code : Result) (s : State) : (record code s).reads = s.reads := by
  unfold record; split <;> simp_all

/-! ## `txDiscard` -/

@[simp] theorem txDiscard_crc (s : State) : (txDiscard s).crc = s.crc := rfl
@[simp] theorem txDiscard_txbuf (s : State) : (txDiscard s).txbuf = [] := rfl
@[simp] theorem txDiscard_txstate (s : State) : (txDiscard s).txstate = .idle := rfl
@[simp] theorem txDiscard_rxbuf (s : State) : (txDiscard s).rxbuf = s.rxbuf := rfl
@[simp] theorem txDiscard_rxovf (s : State) : (txDiscard s).rxovf = s.rxovf := rfl
@[simp] theorem txDiscard_res (s : State) : (txDiscard s).res = s.res := rfl
@[simp] theorem txDiscard_serr (s : State) : (txDiscard s).serr = s.serr := rfl
@[simp] theorem txDiscard_exc (s : State) : (txDiscard s).exc = s.exc := rfl
@[simp] theorem txDiscard_chcount (s : State) : (txDiscard s).chcount = s.chcount := rfl
@[simp] theorem txDiscard_rxcrc (s : State) : (txDiscard s).rxcrc = s.rxcrc := rfl
@[simp] theorem txDiscard_plen (s : State) : (txDiscard s).plen = s.plen := rfl
@[simp] theorem txDiscard_inbox (s : State) : (txDiscard s).inbox = s.inbox := rfl
@[simp] theorem txDiscard_reads (s : State) : (txDiscard s).reads = s.reads := rfl

/-! ## `txPush` -/

@[simp] theorem txPush_crc (v : Byte) (s : State) : (txPush v s).crc = crcStep s.crc v := rfl
@[simp] theorem txPush_txbuf (v : Byte) (s : State) : (txPush v s).txbuf = s.txbuf ++ [v] := rfl
@[simp] theorem txPush_txstate (v : Byte) (s : State) : (txPush v s).txstate = s.txstate := rfl
@[simp] theorem txPush_rxbuf (v : Byte) (s : State) : (txPush v s).rxbuf = s.rxbuf := rfl
@[simp] theorem txPush_rxovf (v : Byte) (s : State) : (txPush v s).rxovf = s.rxovf := rfl
@[simp] theorem txPush_res (v : Byte) (s : State) : (txPush v s).res = s.res := rfl
@[simp] theorem txPush_serr (v : Byte) (s : State) : (txPush v s).serr = s.serr := rfl
@[simp] theorem txPush_exc (v : Byte) (s : State) : (txPush v s).exc = s.exc := rfl
@[simp] theorem txPush_chcount (v : Byte) (s : State) : (txPush v s).chcount = s.chcount := rfl
@[simp] theorem txPush_rxcrc (v : Byte) (s : State) : (txPush v s).rxcrc = s.rxcrc := rfl
@[simp] theorem txPush_plen (v : Byte) (s : State) : (txPush v s).plen = s.plen := rfl
@[simp] theorem txPush_inbox (v : Byte) (s : State) : (txPush v s).inbox = s.inbox := rfl
@[simp] theorem txPush_reads (v : Byte) (s : State) : (txPush v s).reads = s.reads := rfl

/-! ## `txBegin` -/

@[simp] theorem txBegin_crc (a fc : Byte) (s : State) : (txBegin a fc s).crc = crc16 [a, fc] := rfl
@[simp] theorem txBegin_txbuf (a fc : Byte) (s : State) : (txBegin a fc s).txbuf = [a, fc] := rfl
@[simp] theorem txBegin_txstate (a fc : Byte) (s : State) : (txBegin a fc s).txstate = .opened := rfl
@[simp] theorem txBegin_rxbuf (a fc : Byte) (s : State) : (txBegin a fc s).rxbuf = s.rxbuf := rfl
@[simp] theorem txBegin_rxovf (a fc : Byte) (s : State) : (txBegin a fc s).rxovf = s.rxovf := rfl
@[simp] theorem txBegin_res (a fc : Byte) (s : State) : (txBegin a fc s).res = s.res := rfl
@[simp] theorem txBegin_serr (a fc : Byte) (s : State) : (txBegin a fc s).serr = s.serr := rfl
@[simp] theorem txBegin_exc (a fc : Byte) (s : State) : (txBegin a fc s).exc = s.exc := rfl
@[simp] theorem txBegin_chcount (a fc : Byte) (s : State) : (txBegin a fc s).chcount = s.chcount := rfl
@[simp] theorem txBegin_rxcrc (a fc : Byte) (s : State) : (txBegin a fc s).rxcrc = s.rxcrc := rfl
@[simp] theorem txBegin_plen (a fc : Byte) (s : State) : (txBegin a fc s).plen = s.plen := rfl
@[simp] theorem txBegin_inbox (a fc : Byte) (s : State) : (txBegin a fc s).inbox = s.inbox := rfl
@[simp] theorem txBegin_reads (a fc : Byte) (s : State) : (txBegin a fc s).reads = s.reads := rfl

/-! ## `txSeal` -/

@[simp] theorem txSeal_crc (s : State) : (txSeal s).crc = s.crc := rfl
@[simp] theorem txSeal_txbuf (s : State) : (txSeal s).txbuf = s.txbuf ++ crcBytes s.crc := rfl
@[simp] theorem txSeal_txstate (s : State) : (txSeal s).txstate = .sealed := rfl
@[simp] theorem txSeal_rxbuf (s : State) : (txSeal s).rxbuf = s.rxbuf := rfl
@[simp] theorem txSeal_rxovf (s : State) : (txSeal s).rxovf = s.rxovf := rfl
@[simp] theorem txSeal_res (s : State) : (txSeal s).res = s.res := rfl
@[simp] theorem txSeal_serr (s : State) : (txSeal s).serr = s.serr := rfl
@[simp] theorem txSeal_exc (s : State) : (txSeal s).exc = s.exc := rfl
@[simp] theorem txSeal_chcount (s : State) : (txSeal s).chcount = s.chcount := rfl
@[simp] theorem txSeal_rxcrc (s : State) : (txSeal s).rxcrc = s.rxcrc := rfl
@[simp] theorem txSeal_plen (s : State) : (txSeal s).plen = s.plen := rfl
@[simp] theorem txSeal_inbox (s : State) : (txSeal s).inbox = s.inbox := rfl
@[simp] theorem txSeal_reads (s : State) : (txSeal s).reads = s.reads := rfl

/-! ## `setPlen` -/

@[simp] theorem setPlen_crc (s : State) : (setPlen s).crc = s.crc := rfl
@[simp] theorem setPlen_txbuf (s : State) : (setPlen s).txbuf = s.txbuf := rfl
@[simp] theorem setPlen_txstate (s : State) : (setPlen s).txstate = s.txstate := rfl
@[simp] theorem setPlen_rxbuf (s : State) : (setPlen s).rxbuf = s.rxbuf := rfl
@[simp] theorem setPlen_rxovf (s : State) : (setPlen s).rxovf = s.rxovf := rfl
@[simp] theorem setPlen_res (s : State) : (setPlen s).res = s.res := rfl
@[simp] theorem setPlen_serr (s : State) : (setPlen s).serr = s.serr := rfl
@[simp] theorem setPlen_exc (s : State) : (setPlen s).exc = s.exc := rfl
@[simp] theorem setPlen_chcount (s : State) : (setPlen s).chcount = s.chcount := rfl
@[simp] theorem setPlen_rxcrc (s : State) : (setPlen s).rxcrc = s.rxcrc := rfl
@[simp] theorem setPlen_plen (s : State) : (setPlen s).plen = BitVec.ofNat 16 (s.rxbuf.length - 4) := rfl
@[simp] theorem setPlen_inbox (s : State) : (setPlen s).inbox = s.inbox := rfl
@[simp] theorem setPlen_reads (s : State) : (setPlen s).reads = s.reads := rfl

/-! ## `resetBlock` -/

@[simp] theorem resetBlock_crc (s : State) : (resetBlock s).crc = State.reset.crc := rfl
@[simp] theorem resetBlock_txbuf (s : State) : (resetBlock s).txbuf = State.reset.txbuf := rfl
@[simp] theorem resetBlock_txstate (s : State) : (resetBlock s).txstate = State.reset.txstate := rfl
@[simp] theorem resetBlock_rxbuf (s : State) : (resetBlock s).rxbuf = State.reset.rxbuf := rfl
@[simp] theorem resetBlock_rxovf (s : State) : (resetBlock s).rxovf = State.reset.rxovf := rfl
@[simp] theorem resetBlock_res (s : State) : (resetBlock s).res = State.reset.res := rfl
@[simp] theorem resetBlock_serr (s : State) : (resetBlock s).serr = State.reset.serr := rfl
@[simp] theorem resetBlock_exc (s : State) : (resetBlock s).exc = State.reset.exc := rfl
@[simp] theorem resetBlock_chcount (s : State) : (resetBlock s).chcount = State.reset.chcount := rfl
@[simp] theorem resetBlock_rxcrc (s : State) : (resetBlock s).rxcrc = State.reset.rxcrc := rfl
@[simp] theorem resetBlock_plen (s : State) : (resetBlock s).plen = State.reset.plen := rfl
@[simp] theorem resetBlock_inbox (s : State) : (resetBlock s).inbox = s.inbox := rfl
@[simp] theorem resetBlock_reads (s : State) : (resetBlock s).reads = s.reads := rfl

/-! ## `answerRead` -/

@[simp] theorem answerRead_crc (a : PortAddr) (s : State) : (answerRead a s).crc = s.crc := rfl
@[simp] theorem answerRead_txbuf (a : PortAddr) (s : State) : (answerRead a s).txbuf = s.txbuf := rfl
@[simp] theorem answerRead_txstate (a : PortAddr) (s : State) : (answerRead a s).txstate = s.txstate := rfl
@[simp] theorem answerRead_rxbuf (a : PortAddr) (s : State) : (answerRead a s).rxbuf = s.rxbuf := rfl
@[simp] theorem answerRead_rxovf (a : PortAddr) (s : State) : (answerRead a s).rxovf = s.rxovf := rfl
@[simp] theorem answerRead_res (a : PortAddr) (s : State) : (answerRead a s).res = s.res := rfl
@[simp] theorem answerRead_serr (a : PortAddr) (s : State) : (answerRead a s).serr = s.serr := rfl
@[simp] theorem answerRead_exc (a : PortAddr) (s : State) : (answerRead a s).exc = s.exc := rfl
@[simp] theorem answerRead_chcount (a : PortAddr) (s : State) : (answerRead a s).chcount = s.chcount := rfl
@[simp] theorem answerRead_rxcrc (a : PortAddr) (s : State) : (answerRead a s).rxcrc = s.rxcrc := rfl
@[simp] theorem answerRead_plen (a : PortAddr) (s : State) : (answerRead a s).plen = s.plen := rfl
@[simp] theorem answerRead_inbox (a : PortAddr) (s : State) : (answerRead a s).inbox = s.inbox := rfl
@[simp] theorem answerRead_reads (a : PortAddr) (s : State) : (answerRead a s).reads = ⟨a, regRead a s⟩ :: s.reads := rfl

end Sys2Proof.Machine
end

