-- ==== Sys2Proof/Laws/Ops.lean ====
section
/-! SUPPORT. One lemma for everything each shared operation can do. -/

namespace Sys2Proof.Machine

/-! ## The CRC of a sequence -/

@[simp] theorem crcFeed_nil (c : Word) : crcFeed c [] = c := rfl

@[simp] theorem crcFeed_cons (c : Word) (b : Byte) (m : List Byte) : crcFeed c (b :: m) = crcFeed (crcStep c b) m := rfl

theorem crcFeed_append (c : Word) (m n : List Byte) : crcFeed c (m ++ n) = crcFeed (crcFeed c m) n := by
  simp [crcFeed]

theorem crc16_append (m n : List Byte) : crc16 (m ++ n) = crcFeed (crc16 m) n := crcFeed_append _ m n

/-! ## Byte halves -/

theorem getLsbD_pair (h l : Byte) (i : Nat) :
    (h ++ l : Word).getLsbD i = if i < 8 then l.getLsbD i else h.getLsbD (i - 8) := by
  have e := BitVec.getLsbD_append (x := h) (y := l) (i := i)
  simpa [cond_eq_ite] using e

theorem hi8_append_lo8 (v : Word) : (hi8 v ++ lo8 v : Word) = v := by
  refine BitVec.eq_of_getLsbD_eq fun i hi => ?_
  rw [getLsbD_pair]
  by_cases h8 : i < 8
  · simp [h8, lo8]
  · have h0 : i - 8 < 8 := by omega
    have h1 : 8 + (i - 8) = i := by omega
    simp [h8, hi8, h0, h1]

@[simp] theorem lo8_append (h l : Byte) : lo8 (h ++ l) = l := by
  refine BitVec.eq_of_getLsbD_eq fun i hi => ?_
  simp only [lo8, BitVec.getLsbD_extractLsb', Nat.zero_add, getLsbD_pair]
  simp [hi]

@[simp] theorem hi8_append (h l : Byte) : hi8 (h ++ l) = h := by
  refine BitVec.eq_of_getLsbD_eq fun i hi => ?_
  simp only [hi8, BitVec.getLsbD_extractLsb', getLsbD_pair]
  simp [hi]

/-- A pair of bytes is the low-first form of one word only. -/
theorem crcBytes_eq_iff (v : Word) (l h : Byte) : crcBytes v = [l, h] ↔ v = h ++ l := by
  constructor
  · intro e
    simp only [crcBytes, List.cons.injEq, and_true] at e
    rw [← hi8_append_lo8 v, e.1, e.2]
  · rintro rfl
    simp [crcBytes]

/-! ## Transmit primitives -/

theorem txPushAll_eq (vs : List Byte) (s : State) :
    txPushAll vs s = { s with txbuf := s.txbuf ++ vs, crc := crcFeed s.crc vs } := by
  induction vs generalizing s with
  | nil => simp [txPushAll]
  | cons v vs ih => simpa [txPushAll, txPush] using ih (txPush v s)

/-- A frame built in one go: begin, push the payload, seal. -/
theorem txSeal_txPushAll_txBegin (a fc : Byte) (p : List Byte) (s : State) :
    txSeal (txPushAll p (txBegin a fc s)) =
      { s with txbuf := frame a fc p, crc := crc16 (a :: fc :: p), txstate := .sealed } := by
  rw [txPushAll_eq]
  rfl

/-- Everything an encoder's common order can do (42_encoders.md R140). -/
theorem runEncoder_eq (a : Byte) (okay : Bool) (fc : Byte) (p : List Byte) (s : State) :
    runEncoder a okay fc p s =
      if addrBad a then .next { s with txbuf := [], txstate := .idle, res := .config, serr := true }
      else if okay = false then .next { s with txbuf := [], txstate := .idle, res := .range, serr := true }
      else .next { s with txbuf := frame a fc p, crc := crc16 (a :: fc :: p), txstate := .sealed, res := .ok } := by
  unfold runEncoder
  rw [txSeal_txPushAll_txBegin]
  cases okay <;> rfl

/-! ## Ending a command -/

theorem finish_eq_next_iff (code : Result) (s t : State) : finish code s = .next t ↔ t = record code s := by
  simp [finish, eq_comm]

/-! ## Buffers -/

/-- Inside the buffer the byte read is the buffer's. -/
theorem byteAt_of_lt {buf : List Byte} {i : Nat} (h : i < buf.length) : byteAt buf i = buf[i] := by
  simp [byteAt, h]

@[simp] theorem byteAt_cons_zero (x : Byte) (m : List Byte) : byteAt (x :: m) 0 = x := rfl

@[simp] theorem byteAt_cons_one (x y : Byte) (m : List Byte) : byteAt (x :: y :: m) 1 = y := rfl

@[simp] theorem byteAt_cons_two (x y z : Byte) (m : List Byte) : byteAt (x :: y :: z :: m) 2 = z := rfl

/-- The embedded CRC is the last two bytes, the later one the high byte (20_memory.md R54). -/
theorem embeddedCrc_append (m : List Byte) (l h : Byte) : embeddedCrc (m ++ [l, h]) = h ++ l := by
  have e0 : byteAt (m ++ [l, h]) ((m ++ [l, h]).length - 2) = l := by simp [byteAt]
  have e1 : byteAt (m ++ [l, h]) ((m ++ [l, h]).length - 1) = h := by simp [byteAt]
  rw [embeddedCrc, e0, e1]
  refine BitVec.eq_of_getLsbD_eq fun i hi => ?_
  rw [getLsbD_pair]
  by_cases h8 : i < 8
  · simp [h8, hi]
  · simp [h8, hi, BitVec.getLsbD_of_ge l i (by omega)]

/-- A list of at least four bytes is an address, a function code, a payload and two CRC bytes. -/
theorem exists_frame_parts {m : List Byte} (h : 4 ≤ m.length) :
    ∃ x y p l h, m = x :: y :: (p ++ [l, h]) := by
  obtain ⟨x, y, m, rfl⟩ : ∃ x y k, m = x :: y :: k := by
    match m, h with
    | x :: y :: k, _ => exact ⟨x, y, k, rfl⟩
  obtain ⟨k, b, rfl⟩ := m.eq_nil_or_concat'.resolve_left (by rintro rfl; simp at h)
  obtain ⟨p, a, rfl⟩ := k.eq_nil_or_concat'.resolve_left (by rintro rfl; simp at h)
  exact ⟨x, y, p, a, b, by simp⟩

/-! ## The decode function -/

/-- The checks after the CRC check, on a buffer split into its parts. -/
theorem rxHeader_parts (ea ef x y : Byte) (p : List Byte) (l h : Byte) (s : State)
    (hs : s.rxbuf = x :: y :: (p ++ [l, h])) :
    rxHeader ea ef s =
      if x ≠ ea then (.addrMismatch, s)
      else if y.getLsbD 7 then
        match p with
        | [] => (.shortFrame, s)
        | e :: q => (.exception, { s with exc := e, plen := BitVec.ofNat 16 (q.length + 1) })
      else if y ≠ ef then (.funcMismatch, { s with plen := BitVec.ofNat 16 p.length })
      else (.ok, { s with plen := BitVec.ofNat 16 p.length }) := by
  have hl (q : List Byte) : ¬ q.length + 2 + 1 + 1 + 1 < 5 := by omega
  cases p <;> simp [rxHeader, hs, setPlen, hl]

/-- Everything `rx_decode` can do (43_frame_rx.md R175), on a buffer of at least four bytes. -/
theorem rxDecode_parts (ea ef x y : Byte) (p : List Byte) (l h : Byte) (s : State)
    (hs : s.rxbuf = x :: y :: (p ++ [l, h])) (ho : s.rxovf = false) :
    rxDecode ea ef s =
      if crc16 (x :: y :: p) ≠ h ++ l then
        (.crcMismatch, { s with exc := 0#8, plen := 0#16, rxcrc := crc16 (x :: y :: p) })
      else rxHeader ea ef { s with exc := 0#8, plen := 0#16, rxcrc := crc16 (x :: y :: p) } := by
  have hb : s.rxbuf = (x :: y :: p) ++ [l, h] := by simpa using hs
  have ht : s.rxbuf.take (s.rxbuf.length - 2) = x :: y :: p := by rw [hb]; simp
  have he : embeddedCrc s.rxbuf = h ++ l := by rw [hb, embeddedCrc_append]
  have hl : ¬ s.rxbuf.length < 4 := by rw [hb]; simp
  simp only [rxDecode, rxBody, ho, hl, ht, he, if_false, Bool.false_eq_true]

/-- The two ends of `rx_decode` before its CRC check (43_frame_rx.md R175). -/
theorem rxDecode_overflow (ea ef : Byte) {s : State} (ho : s.rxovf = true) :
    rxDecode ea ef s = (.overflow, { s with exc := 0#8, plen := 0#16 }) := by
  simp [rxDecode, ho]

theorem rxDecode_short (ea ef : Byte) {s : State} (ho : s.rxovf = false) (hl : s.rxbuf.length < 4) :
    rxDecode ea ef s = (.shortFrame, { s with exc := 0#8, plen := 0#16 }) := by
  simp [rxDecode, ho, hl]

/-- What `rx_decode` leaves alone: it writes EXC, PLEN and RXCRC only. -/
theorem rxDecode_frame (ea ef : Byte) (s : State) :
    ∃ e n c, (rxDecode ea ef s).2 = { s with exc := e, plen := n, rxcrc := c } := by
  simp only [rxDecode, rxBody, rxHeader, setPlen]
  split_ifs <;> exact ⟨_, _, _, rfl⟩

@[simp] theorem rxDecode_crc (ea ef : Byte) (s : State) : (rxDecode ea ef s).2.crc = s.crc := by
  obtain ⟨_, _, _, h⟩ := rxDecode_frame ea ef s
  rw [h]

@[simp] theorem rxDecode_txbuf (ea ef : Byte) (s : State) : (rxDecode ea ef s).2.txbuf = s.txbuf := by
  obtain ⟨_, _, _, h⟩ := rxDecode_frame ea ef s
  rw [h]

@[simp] theorem rxDecode_txstate (ea ef : Byte) (s : State) : (rxDecode ea ef s).2.txstate = s.txstate := by
  obtain ⟨_, _, _, h⟩ := rxDecode_frame ea ef s
  rw [h]

@[simp] theorem rxDecode_rxbuf (ea ef : Byte) (s : State) : (rxDecode ea ef s).2.rxbuf = s.rxbuf := by
  obtain ⟨_, _, _, h⟩ := rxDecode_frame ea ef s
  rw [h]

@[simp] theorem rxDecode_rxovf (ea ef : Byte) (s : State) : (rxDecode ea ef s).2.rxovf = s.rxovf := by
  obtain ⟨_, _, _, h⟩ := rxDecode_frame ea ef s
  rw [h]

@[simp] theorem rxDecode_chcount (ea ef : Byte) (s : State) : (rxDecode ea ef s).2.chcount = s.chcount := by
  obtain ⟨_, _, _, h⟩ := rxDecode_frame ea ef s
  rw [h]

/-- PLEN after `rx_decode` is 0 or the length less four. -/
theorem rxDecode_plen (ea ef : Byte) (s : State) :
    (rxDecode ea ef s).2.plen = 0#16 ∨ (rxDecode ea ef s).2.plen = BitVec.ofNat 16 (s.rxbuf.length - 4) := by
  simp only [rxDecode, rxBody, rxHeader, setPlen]
  split_ifs <;> simp

end Sys2Proof.Machine
end

