-- ==== Sys2Proof/Laws/Crc.lean ====
section
/-! SUPPORT. The CRC round is linear over exclusive or and has only the zero state in its kernel (spec/40_crc.md R102,
R103). -/

namespace Sys2Proof.Machine

theorem crcRound_even {c : Word} (h : c.getLsbD 0 = false) : crcRound c = c >>> 1 := by
  rw [crcRound, h]; rfl

theorem crcRound_odd {c : Word} (h : c.getLsbD 0 = true) : crcRound c = (c >>> 1) ^^^ Config.poly := by
  rw [crcRound, h]; rfl

theorem crcRound_xor (c d : Word) : crcRound (c ^^^ d) = crcRound c ^^^ crcRound d := by
  have hx : (c ^^^ d).getLsbD 0 = (c.getLsbD 0 ^^ d.getLsbD 0) := BitVec.getLsbD_xor
  cases hc : c.getLsbD 0 <;> cases hd : d.getLsbD 0 <;> rw [hc, hd] at hx
  · rw [crcRound_even hx, crcRound_even hc, crcRound_even hd, BitVec.ushiftRight_xor_distrib]
  · rw [crcRound_odd hx, crcRound_even hc, crcRound_odd hd, BitVec.ushiftRight_xor_distrib, BitVec.xor_assoc]
  · rw [crcRound_odd hx, crcRound_odd hc, crcRound_even hd, BitVec.ushiftRight_xor_distrib, BitVec.xor_assoc,
      BitVec.xor_assoc, BitVec.xor_comm (d >>> 1)]
  · rw [crcRound_even hx, crcRound_odd hc, crcRound_odd hd, BitVec.ushiftRight_xor_distrib]
    refine BitVec.eq_of_getLsbD_eq fun i _ => ?_
    simp only [BitVec.getLsbD_xor]
    cases Config.poly.getLsbD i <;> simp

theorem crcRounds_xor (n : Nat) (c d : Word) : crcRounds n (c ^^^ d) = crcRounds n c ^^^ crcRounds n d := by
  induction n generalizing c d with
  | zero => rfl
  | succ n ih => rw [crcRounds, crcRound_xor, ih]; rfl

@[simp] theorem crcRound_zero : crcRound 0#16 = 0#16 := by decide

theorem crcRounds_zero (n : Nat) : crcRounds n 0#16 = 0#16 := by
  induction n with
  | zero => rfl
  | succ n ih => simpa [crcRounds] using ih

/-- Bit 15 of a round's result is the bit shifted out, since bit 15 of POLY is 1 and a zero enters at the top. -/
theorem crcRound_top (c : Word) : (crcRound c).getLsbD 15 = c.getLsbD 0 := by
  cases h : c.getLsbD 0
  · rw [crcRound_even h, BitVec.getLsbD_ushiftRight]
    simp
  · rw [crcRound_odd h, BitVec.getLsbD_xor, BitVec.getLsbD_ushiftRight]
    have hp : Config.poly.getLsbD 15 = true := by decide
    rw [hp]
    simp

theorem crcRound_eq_zero {c : Word} (h : crcRound c = 0#16) : c = 0#16 := by
  have h0 : c.getLsbD 0 = false := by rw [← crcRound_top, h]; rfl
  have hs : c >>> 1 = 0#16 := by rw [← crcRound_even h0, h]
  refine BitVec.eq_of_getLsbD_eq fun i hi => ?_
  cases i with
  | zero => simpa using h0
  | succ i =>
    have := congrArg (fun v : Word => v.getLsbD i) hs
    simpa [BitVec.getLsbD_ushiftRight, Nat.add_comm] using this

theorem crcRounds_eq_zero {n : Nat} {c : Word} (h : crcRounds n c = 0#16) : c = 0#16 := by
  induction n generalizing c with
  | zero => exact h
  | succ n ih => exact crcRound_eq_zero (ih h)

/-- Rounds on a state whose low bits are clear only shift. -/
theorem crcRounds_of_low_clear (n : Nat) (c : Word) (h : ∀ i < n, c.getLsbD i = false) : crcRounds n c = c >>> n := by
  induction n generalizing c with
  | zero => simp [crcRounds]
  | succ n ih =>
    have h0 : c.getLsbD 0 = false := h 0 (by omega)
    rw [crcRounds, crcRound_even h0, ih]
    · rw [← BitVec.shiftRight_add, Nat.add_comm]
    · intro i hi
      rw [BitVec.getLsbD_ushiftRight]
      exact h (1 + i) (by omega)

end Sys2Proof.Machine
end

