-- ==== Sys2Proof/Laws/Decode.lean ====
section
/-! SUPPORT. The fields of an assembled word, and that the rows of the opcode map do not overlap. -/

namespace Sys2Proof

/-! ## Assembled words -/

theorem getLsbD_assemble (op : BitVec 8) (a : Byte) (b c d : Word) (i : Nat) :
    (assemble op a b c d).getLsbD i =
      if i < 16 then d.getLsbD i
      else if i < 32 then c.getLsbD (i - 16)
      else if i < 48 then b.getLsbD (i - 32)
      else if i < 56 then a.getLsbD (i - 48)
      else op.getLsbD (i - 56) := by
  have e1 := BitVec.getLsbD_append (x := op ++ a ++ b ++ c) (y := d) (i := i)
  have e2 := BitVec.getLsbD_append (x := op ++ a ++ b) (y := c) (i := i - 16)
  have e3 := BitVec.getLsbD_append (x := op ++ a) (y := b) (i := i - 16 - 16)
  have e4 := BitVec.getLsbD_append (x := op) (y := a) (i := i - 16 - 16 - 16)
  refine e1.trans ?_
  split
  · rfl
  refine e2.trans ?_
  by_cases h2 : i < 32
  · rw [if_pos (by omega), if_pos h2]
  rw [if_neg (by omega), if_neg h2]
  refine e3.trans ?_
  by_cases h3 : i < 48
  · rw [if_pos (by omega), if_pos h3]
    congr 1
  rw [if_neg (by omega), if_neg h3]
  refine e4.trans ?_
  by_cases h4 : i < 56
  · rw [if_pos (by omega), if_pos h4]
    congr 1
  rw [if_neg (by omega), if_neg h4]
  congr 1

@[simp] theorem fieldOp_assemble (op : BitVec 8) (a : Byte) (b c d : Word) : fieldOp (assemble op a b c d) = op := by
  refine BitVec.eq_of_getLsbD_eq fun i hi => ?_
  simp only [fieldOp, BitVec.getLsbD_extractLsb', getLsbD_assemble]
  split_ifs <;> first | omega | simp [hi]

@[simp] theorem fieldA_assemble (op : BitVec 8) (a : Byte) (b c d : Word) : fieldA (assemble op a b c d) = a := by
  refine BitVec.eq_of_getLsbD_eq fun i hi => ?_
  simp only [fieldA, BitVec.getLsbD_extractLsb', getLsbD_assemble]
  split_ifs <;> first | omega | simp [hi]

@[simp] theorem fieldB_assemble (op : BitVec 8) (a : Byte) (b c d : Word) : fieldB (assemble op a b c d) = b := by
  refine BitVec.eq_of_getLsbD_eq fun i hi => ?_
  simp only [fieldB, BitVec.getLsbD_extractLsb', getLsbD_assemble]
  split_ifs <;> first | omega | simp [hi]

@[simp] theorem fieldC_assemble (op : BitVec 8) (a : Byte) (b c d : Word) : fieldC (assemble op a b c d) = c := by
  refine BitVec.eq_of_getLsbD_eq fun i hi => ?_
  simp only [fieldC, BitVec.getLsbD_extractLsb', getLsbD_assemble]
  split_ifs <;> first | omega | simp [hi]

@[simp] theorem fieldD_assemble (op : BitVec 8) (a : Byte) (b c d : Word) : fieldD (assemble op a b c d) = d := by
  refine BitVec.eq_of_getLsbD_eq fun i hi => ?_
  simp only [fieldD, BitVec.getLsbD_extractLsb', getLsbD_assemble]
  split_ifs <;> first | omega | simp [hi]

/-- Every word is the assembly of its fields (30_encoding.md R71). -/
theorem assemble_fields (w : CommandWord) : assemble (fieldOp w) (fieldA w) (fieldB w) (fieldC w) (fieldD w) = w := by
  refine BitVec.eq_of_getLsbD_eq fun i hi => ?_
  simp only [getLsbD_assemble, fieldOp, fieldA, fieldB, fieldC, fieldD, BitVec.getLsbD_extractLsb']
  split_ifs <;> rw [decide_eq_true (by omega), Bool.true_and] <;> congr 1 <;> omega

theorem assemble_inj {op op' : BitVec 8} {a a' : Byte} {b b' c c' d d' : Word} :
    assemble op a b c d = assemble op' a' b' c' d' ↔ op = op' ∧ a = a' ∧ b = b' ∧ c = c' ∧ d = d' := by
  constructor
  · intro e
    refine ⟨?_, ?_, ?_, ?_, ?_⟩
    · simpa using congrArg fieldOp e
    · simpa using congrArg fieldA e
    · simpa using congrArg fieldB e
    · simpa using congrArg fieldC e
    · simpa using congrArg fieldD e
  · rintro ⟨rfl, rfl, rfl, rfl, rfl⟩; rfl

/-- A mask acts field by field. -/
theorem assemble_and (op op' : BitVec 8) (a a' : Byte) (b b' c c' d d' : Word) :
    assemble op a b c d &&& assemble op' a' b' c' d' =
      assemble (op &&& op') (a &&& a') (b &&& b') (c &&& c') (d &&& d') := by
  refine BitVec.eq_of_getLsbD_eq fun i hi => ?_
  simp only [BitVec.getLsbD_and, getLsbD_assemble]
  split_ifs <;> rfl

@[simp] theorem shortB_assemble (op : BitVec 8) (a fc : Byte) (c d : Word) :
    shortB (assemble op a (shortField fc) c d) = fc := by
  refine BitVec.eq_of_getLsbD_eq fun i hi => ?_
  have h0 : i < 16 := by omega
  simp [shortB, shortField, hi, h0]

@[simp] theorem bitC_assemble (op : BitVec 8) (a : Byte) (b d : Word) (on : Bool) :
    bitC (assemble op a b (bitField on) d) = on := by
  cases on <;> simp [bitC, bitField]

@[simp] theorem bitD_assemble (op : BitVec 8) (a : Byte) (b c : Word) (on : Bool) :
    bitD (assemble op a b c (bitField on)) = on := by
  cases on <;> simp [bitD, bitField]

/-! ## The opcode map -/

/-- Every row's mask covers the opcode, and the rows' opcodes are distinct (30_encoding.md R73). -/
theorem rows_opcodes_distinct :
    opcodeRows.Pairwise (fun r r' => fieldOp r.pattern ≠ fieldOp r'.pattern) ∧
      ∀ r ∈ opcodeRows, fieldOp r.mask = 0xFF#8 := by
  constructor
  · simp only [opcodeRows, controlRows, crcRows, frameTxRows, encoderRows, frameRxRows, List.cons_append, List.nil_append]
    decide
  · simp only [opcodeRows, controlRows, crcRows, frameTxRows, encoderRows, frameRxRows, List.cons_append, List.nil_append]
    decide

theorem fieldOp_and (v w : CommandWord) : fieldOp (v &&& w) = fieldOp v &&& fieldOp w := by
  refine BitVec.eq_of_getLsbD_eq fun i hi => ?_
  simp [fieldOp, hi]

/-- A row accepts only words with its opcode. -/
theorem fieldOp_of_accepts {r : OpcodeRow} (hr : r ∈ opcodeRows) {w : CommandWord} (h : r.accepts w = true) :
    fieldOp w = fieldOp r.pattern := by
  have e : w &&& r.mask = r.pattern := by simpa [OpcodeRow.accepts] using h
  have m := rows_opcodes_distinct.2 r hr
  rw [← e, fieldOp_and, m]
  exact (BitVec.and_allOnes (x := fieldOp w)).symm

/-- The first matching row is the only one: a row of the map that accepts the word decides what it decodes to. -/
theorem decode_of_accepts {r : OpcodeRow} (hr : r ∈ opcodeRows) {w : CommandWord} (h : r.accepts w = true) :
    decode w = .ok (r.build w) := by
  have key : ∀ rows : List OpcodeRow, (∀ q ∈ rows, q ∈ opcodeRows) →
      rows.Pairwise (fun r r' => fieldOp r.pattern ≠ fieldOp r'.pattern) → r ∈ rows →
      rows.find? (·.accepts w) = some r := by
    intro rows
    induction rows with
    | nil => intro _ _ hm; cases hm
    | cons q rows ih =>
      intro hsub hp hm
      rcases List.mem_cons.1 hm with rfl | hm
      · simp [h]
      · have hq : q.accepts w = false := by
          by_contra hq
          have hq : q.accepts w = true := by simpa using hq
          exact (List.pairwise_cons.1 hp).1 r hm
            ((fieldOp_of_accepts (hsub q (by simp)) hq).symm.trans (fieldOp_of_accepts hr h))
        rw [List.find?_cons, hq]
        exact ih (fun p hp' => hsub p (by simp [hp'])) (List.pairwise_cons.1 hp).2 hm
  simp only [decode, key opcodeRows (fun _ h => h) rows_opcodes_distinct.1 hr]

/-- A word no row accepts is refused. -/
theorem decode_of_no_row {w : CommandWord} (h : ∀ r ∈ opcodeRows, r.accepts w = false) :
    ∃ e, decode w = .error e := by
  have hf : opcodeRows.find? (·.accepts w) = none := by
    rw [List.find?_eq_none]
    intro r hr
    simp [h r hr]
  unfold decode
  rw [hf]
  cases opcodeRows.any (·.hasOpcode w)
  · exact ⟨.reservedOpcode, rfl⟩
  · exact ⟨.unusedBitSet, rfl⟩

/-- What decoding can answer (30_encoding.md R73). -/
theorem decode_cases (w : CommandWord) :
    (∃ r ∈ opcodeRows, r.accepts w = true ∧ decode w = .ok (r.build w)) ∨
      ((∀ r ∈ opcodeRows, r.accepts w = false) ∧ ∃ e, decode w = .error e) := by
  by_cases h : ∃ r ∈ opcodeRows, r.accepts w = true
  · obtain ⟨r, hr, ha⟩ := h
    exact .inl ⟨r, hr, ha, decode_of_accepts hr ha⟩
  · have h' : ∀ r ∈ opcodeRows, r.accepts w = false := by
      intro r hr
      by_contra ha
      exact h ⟨r, hr, by simpa using ha⟩
    exact .inr ⟨h', decode_of_no_row h'⟩

end Sys2Proof
end

