-- ==== Sys2Proof/Laws/Inv.lean ====
section
/-! SUPPORT. The shared operations keep the buffers' invariants (spec/10_state.md R25, R26, R30). -/

namespace Sys2Proof.Machine

/-! ## Ending a command -/

@[simp] theorem txInv_record (code : Result) (s : State) : (record code s).TxInv ↔ s.TxInv := by
  simp [State.TxInv]

@[simp] theorem rxInv_record (code : Result) (s : State) : (record code s).RxInv ↔ s.RxInv := by
  simp [State.RxInv]

theorem controlInv_record (code : Result) {s : State} (h : s.chcount ≠ 0#16) : (record code s).ControlInv := by
  refine ⟨by simpa using h, fun hr => ?_⟩
  simp only [record_res] at hr
  simp [hr]

/-! ## The transmit side -/

theorem txInv_of_empty {s : State} (hb : s.txbuf = []) (hs : s.txstate = .idle) : s.TxInv := by
  simp [State.TxInv, hb, hs]

theorem txInv_txDiscard (s : State) : (txDiscard s).TxInv := txInv_of_empty rfl rfl

/-- A request header is what the address and function code checks let through. -/
theorem header_of_checks {a fc : Byte} (ha : addrBad a = false) (hf : requestFcBad fc = false) :
    a.toNat ≤ 247 ∧ 1 ≤ fc.toNat ∧ fc.toNat ≤ 0x7F := by
  have h1 : a.toNat ≤ 247 := Nat.not_lt.1 (of_decide_eq_false ha)
  simp only [requestFcBad, Bool.or_eq_false_iff, beq_eq_false_iff_ne] at hf
  have h0 : fc.toNat ≠ 0 := fun e => hf.1 (BitVec.eq_of_toNat_eq (by simpa using e))
  have h7 : ¬ 128 ≤ fc.toNat := by
    intro hge
    have hlt := fc.isLt
    have : fc.msb = true := BitVec.msb_eq_decide fc ▸ by simpa using hge
    rw [BitVec.msb_eq_getLsbD_last] at this
    simp_all
  omega

theorem txInv_txBegin {a fc : Byte} (ha : addrBad a = false) (hf : requestFcBad fc = false) (s : State) :
    (txBegin a fc s).TxInv := by
  have h := header_of_checks ha hf
  simp [State.TxInv, Config.nbuf, h]

/-- Appending to an open frame, with room for the CRC (41_frame_tx.md R122, R123). -/
theorem txInv_txPushAll {s : State} (hs : s.TxInv) (ho : s.txstate = .opened) (vs : List Byte)
    (hl : s.txbuf.length + vs.length ≤ Config.nbuf - 2) : (txPushAll vs s).TxInv := by
  obtain ⟨-, h2, -, h4⟩ := hs
  obtain ⟨g1, -, g3⟩ := h2 ho
  have e0 : byteAt (s.txbuf ++ vs) 0 = byteAt s.txbuf 0 := by
    rw [byteAt, byteAt, List.getElem?_append_left (by omega)]
  have e1 : byteAt (s.txbuf ++ vs) 1 = byteAt s.txbuf 1 := by
    rw [byteAt, byteAt, List.getElem?_append_left (by omega)]
  rw [txPushAll_eq]
  refine ⟨by simp [ho], fun _ => ⟨?_, ?_, ?_⟩, by simp [ho], fun _ => ?_⟩
  · simp only [List.length_append]; omega
  · simpa using hl
  · simp only [g3, crc16_append]
  · simp only [e0, e1]; exact h4 g1

theorem take_withCrc (m : List Byte) : (withCrc m).take ((withCrc m).length - 2) = m := by
  simp [withCrc, crcBytes]

theorem length_withCrc (m : List Byte) : (withCrc m).length = m.length + 2 := by
  simp [withCrc, crcBytes]

/-- Sealing an open frame (41_frame_tx.md R124). -/
theorem txInv_txSeal {s : State} (hs : s.TxInv) (ho : s.txstate = .opened) : (txSeal s).TxInv := by
  obtain ⟨-, h2, -, h4⟩ := hs
  obtain ⟨g1, g2, g3⟩ := h2 ho
  have hb : (txSeal s).txbuf = withCrc s.txbuf := by simp [withCrc, g3]
  have e0 : byteAt (withCrc s.txbuf) 0 = byteAt s.txbuf 0 := by
    rw [withCrc, byteAt, byteAt, List.getElem?_append_left (by omega)]
  have e1 : byteAt (withCrc s.txbuf) 1 = byteAt s.txbuf 1 := by
    rw [withCrc, byteAt, byteAt, List.getElem?_append_left (by omega)]
  refine ⟨by simp, by simp, fun _ => ?_, fun _ => ?_⟩
  · rw [hb, take_withCrc, length_withCrc]
    simp only [Config.nbuf] at g2 ⊢
    exact ⟨by omega, by omega, rfl⟩
  · rw [hb, e0, e1]; exact h4 g1

/-- A complete frame whose header passes the checks and whose payload fits (41_frame_tx.md R127). -/
theorem txInv_of_frame {s : State} {a fc : Byte} {p : List Byte} (hb : s.txbuf = frame a fc p)
    (hs : s.txstate = .sealed) (ha : addrBad a = false) (hf : requestFcBad fc = false) (hl : p.length ≤ 252) :
    s.TxInv := by
  have h := header_of_checks ha hf
  refine ⟨by simp [hs], by simp [hs], fun _ => ?_, fun _ => ?_⟩
  · rw [hb, frame, take_withCrc, length_withCrc]
    simp only [Config.nbuf, List.length_cons]
    exact ⟨by omega, by omega, rfl⟩
  · rw [hb]; exact h

/-! ## The receive side -/

theorem rxInv_of_empty {s : State} (hp : s.plen.toNat ≤ Config.nbuf - 4) (hb : s.rxbuf = []) (ho : s.rxovf = false) :
    s.RxInv := by
  simp [State.RxInv, hb, ho, hp]

/-- `rx_decode` keeps the receive side's ranges (43_frame_rx.md R175). -/
theorem rxInv_rxDecode {s : State} (hs : s.RxInv) (ea ef : Byte) : (rxDecode ea ef s).2.RxInv := by
  obtain ⟨h1, h2, h3⟩ := hs
  obtain ⟨e, n, c, hf⟩ := rxDecode_frame ea ef s
  have hp := rxDecode_plen ea ef s
  rw [hf] at hp ⊢
  refine ⟨h1, ?_, h3⟩
  simp only [Config.nbuf] at *
  rcases hp with hp | hp <;> simp only [hp, BitVec.toNat_ofNat] <;> omega

/-- The address and function code DEC_ECHO expects are those of the frame in TXBUF; decoding leaves the transmit side
(43_frame_rx.md R179). -/
theorem txInv_rxDecode {s : State} (ea ef : Byte) : (rxDecode ea ef s).2.TxInv ↔ s.TxInv := by
  obtain ⟨e, n, c, hf⟩ := rxDecode_frame ea ef s
  rw [hf]

/-! ## Transmission -/

@[simp] theorem mayTransmit_iff (s : State) : s.mayTransmit = true ↔ s.txstate = .sealed := by
  simp [State.mayTransmit]

/-- What the host sends is TXBUF of a sealed frame. -/
theorem requestToSend_eq_some_iff (s : State) (m : List Byte) :
    s.requestToSend = some m ↔ s.txstate = .sealed ∧ s.txbuf = m := by
  simp [State.requestToSend]

/-- A run of assembly commands goes on past a command that is no TX command, however it ends. -/
theorem execTxOk_cons_other {i : Instr} {s t : State} (h : exec i s = .next t) (hi : i.isTx = false)
    (rest : List Instr) : execTxOk (i :: rest) s = execTxOk rest t := by
  simp [execTxOk, h, hi]

/-- A run of assembly commands goes on past a TX command exactly when it ends OK. -/
theorem execTxOk_cons_tx {i : Instr} {s t : State} (h : exec i s = .next t) (hi : i.isTx = true) (rest : List Instr) :
    execTxOk (i :: rest) s = if t.res = .ok then execTxOk rest t else none := by
  by_cases hr : t.res = .ok <;> simp [execTxOk, h, hi, hr]

end Sys2Proof.Machine
end

