-- ==== Sys2Proof/Laws/PerInstr.lean ====
section
/-! SUPPORT. Statements about every command as syntax, one lemma per constructor. -/

namespace Sys2Proof.Laws.EncodeWellFormed

/-- The word of a command is well formed: its opcode is in the map and its must-be-zero bits are 0
(spec/30_encoding.md R74, R77). -/
def Statement (i : Instr) : Prop := wordWellFormed (encode i) = true

/-- The operand bits of an assembled word. -/
theorem operandBits_assemble (op : BitVec 8) (a : Byte) (b c d : Word) :
    (assemble op a b c d).extractLsb' 0 56 = (assemble 0#8 a b c d).extractLsb' 0 56 := by
  refine BitVec.eq_of_getLsbD_eq fun i hi => ?_
  simp only [BitVec.getLsbD_extractLsb', getLsbD_assemble]
  split_ifs <;> first | rfl | omega

/-- An assembled word is well formed when its operands meet the opcode's mask in zero. -/
theorem wellFormed_assemble {op : BitVec 8} {a : Byte} {b c d : Word} {m : BitVec 56} {ma : Byte} {mb mc md : Word}
    (hm : mustBeZero op = some m) (hm' : m = (assemble 0#8 ma mb mc md).extractLsb' 0 56)
    (ha : a &&& ma = 0#8) (hb : b &&& mb = 0#16) (hc : c &&& mc = 0#16) (hd : d &&& md = 0#16) :
    wordWellFormed (assemble op a b c d) = true := by
  have ho : (assemble op a b c d).extractLsb' 56 8 = op := fieldOp_assemble op a b c d
  have e : (assemble op a b c d).extractLsb' 0 56 &&& m = 0#56 := by
    have z : assemble 0#8 a b c d &&& assemble 0#8 ma mb mc md = assemble 0#8 0#8 0#16 0#16 0#16 := by
      rw [assemble_and, ha, hb, hc, hd]; rfl
    have k := congrArg (fun w : CommandWord => w.extractLsb' 0 56) z
    simp only [BitVec.extractLsb'_and] at k
    rw [operandBits_assemble, hm', k]
    decide
  simp [wordWellFormed, opcodeKnown, unusedBitsClear, ho, hm, e]

theorem shortField_high (fc : Byte) : shortField fc &&& 0xFF00#16 = 0#16 := by
  refine BitVec.eq_of_getLsbD_eq fun i hi => ?_
  by_cases h : i < 8
  · have : (0xFF00#16).getLsbD i = false := by interval_cases i <;> rfl
    simp [this]
  · have : fc.getLsbD i = false := BitVec.getLsbD_of_ge _ _ (by omega)
    simp [shortField, this]

theorem bitField_high (on : Bool) : bitField on &&& 0xFFFE#16 = 0#16 := by
  cases on <;> decide

theorem nop : Statement .nop := by unfold Statement; decide
theorem clrErr : Statement .clrErr := by unfold Statement; decide
theorem setChcount (b : Word) : Statement (.setChcount b) :=
  wellFormed_assemble (ma := 0xFF#8) (mb := 0#16) (mc := 0xFFFF#16) (md := 0xFFFF#16) rfl (by decide) (by decide)
    BitVec.and_zero (by decide) (by decide)
theorem softReset : Statement .softReset := by unfold Statement; decide
theorem crcInit : Statement .crcInit := by unfold Statement; decide
theorem crcByte (a : Byte) : Statement (.crcByte a) :=
  wellFormed_assemble (ma := 0#8) (mb := 0xFFFF#16) (mc := 0xFFFF#16) (md := 0xFFFF#16) rfl (by decide) BitVec.and_zero
    (by decide) (by decide) (by decide)
theorem txBegin (a fc : Byte) : Statement (.txBegin a fc) :=
  wellFormed_assemble (ma := 0#8) (mb := 0xFF00#16) (mc := 0xFFFF#16) (md := 0xFFFF#16) rfl (by decide) BitVec.and_zero
    (shortField_high fc) (by decide) (by decide)
theorem txByte (a : Byte) : Statement (.txByte a) :=
  wellFormed_assemble (ma := 0#8) (mb := 0xFFFF#16) (mc := 0xFFFF#16) (md := 0xFFFF#16) rfl (by decide) BitVec.and_zero
    (by decide) (by decide) (by decide)
theorem txU16 (b : Word) : Statement (.txU16 b) :=
  wellFormed_assemble (ma := 0xFF#8) (mb := 0#16) (mc := 0xFFFF#16) (md := 0xFFFF#16) rfl (by decide) (by decide)
    BitVec.and_zero (by decide) (by decide)
theorem txEnd : Statement .txEnd := by unfold Statement; decide
theorem txClear : Statement .txClear := by unfold Statement; decide
theorem encRc (a : Byte) (b c : Word) : Statement (.encRc a b c) :=
  wellFormed_assemble (ma := 0#8) (mb := 0#16) (mc := 0#16) (md := 0xFFFF#16) rfl (by decide) BitVec.and_zero
    BitVec.and_zero BitVec.and_zero (by decide)
theorem encWsc (a : Byte) (b : Word) (on : Bool) : Statement (.encWsc a b on) :=
  wellFormed_assemble (ma := 0#8) (mb := 0#16) (mc := 0xFFFE#16) (md := 0xFFFF#16) rfl (by decide) BitVec.and_zero
    BitVec.and_zero (bitField_high on) (by decide)
theorem encWmc (a : Byte) (b c : Word) (on : Bool) : Statement (.encWmc a b c on) :=
  wellFormed_assemble (ma := 0#8) (mb := 0#16) (mc := 0#16) (md := 0xFFFE#16) rfl (by decide) BitVec.and_zero
    BitVec.and_zero BitVec.and_zero (bitField_high on)
theorem encWmr (a : Byte) (b c : Word) : Statement (.encWmr a b c) :=
  wellFormed_assemble (ma := 0#8) (mb := 0#16) (mc := 0#16) (md := 0xFFFF#16) rfl (by decide) BitVec.and_zero
    BitVec.and_zero BitVec.and_zero (by decide)
theorem rxClear : Statement .rxClear := by unfold Statement; decide
theorem rxByte (a : Byte) : Statement (.rxByte a) :=
  wellFormed_assemble (ma := 0#8) (mb := 0xFFFF#16) (mc := 0xFFFF#16) (md := 0xFFFF#16) rfl (by decide) BitVec.and_zero
    (by decide) (by decide) (by decide)
theorem decCheck (a fc : Byte) : Statement (.decCheck a fc) :=
  wellFormed_assemble (ma := 0#8) (mb := 0xFF00#16) (mc := 0xFFFF#16) (md := 0xFFFF#16) rfl (by decide) BitVec.and_zero
    (shortField_high fc) (by decide) (by decide)
theorem decEcho : Statement .decEcho := by unfold Statement; decide

end Sys2Proof.Laws.EncodeWellFormed
end

