-- ==== Sys2Proof/Tests/Slice0.lean ====
section
/-! SUPPORT. Tests. Expected words, bytes and STATUS values are those of spec/95_test_vectors.md, named by its row (X…, P…,
E…), or are written out from the rule named. The last part meets the hypotheses of each statement, at the ends of the
ranges. -/

namespace Sys2Proof.Tests

set_option Elab.async false

open Sys2Proof Sys2Proof.Machine

/-- The outcome is a next state of which `p` holds. -/
def gives (o : Host.Outcome State Fault Refusal) (p : State → Bool) : Bool :=
  match o with
  | .next t => p t
  | .fault _ => false
  | .refused _ => false

/-- One step on the command word `w`. -/
def runWord (w : Nat) (s : State) : Host.Outcome State Fault Refusal := step (s.withFetchWord 64 w)

/-- The state `ENC_WSC 1, 3, 1` leaves after reset (X3.11, section 3.6). -/
def afterWsc : State :=
  { State.reset with
    crc := 0xFA2D#16, txstate := .sealed,
    txbuf := [0x01#8, 0x05#8, 0x00#8, 0x02#8, 0xFF#8, 0x00#8, 0x2D#8, 0xFA#8] }

/-- The state `TX_BEGIN 1, 5` leaves after reset (X1.18). -/
def afterBegin : State :=
  { State.reset with crc := 0x23C0#16, txstate := .opened, txbuf := [0x01#8, 0x05#8] }

/-- A frame being assembled, with `n` bytes. -/
def openedWith (n : Nat) : State := { State.reset with txstate := .opened, txbuf := List.replicate n 0x00#8 }

/-- The reset state with the received bytes `m`. -/
def received (m : List Byte) : State := { State.reset with rxbuf := m }

/-- The reset state with CHCOUNT `n`. -/
def withChannels (n : Word) : State := { State.reset with chcount := n }

/-- One payload byte and one payload field, with a refused CRC_INIT, a NOP and an RX_BYTE between (R126). -/
def mixedAssembly : List Instr := [.txByte 0xAA#8, .crcInit, .nop, .rxByte 1#8, .txU16 0x0102#16]

/-! ## WellFormed: an ill-formed word for each check -/

theorem test_wf_refuses_reserved_opcodes :
    opcodeKnown 0x0400000000000000#64 = false ∧ opcodeKnown 0xFF00000000000000#64 = false ∧
    wordWellFormed 0x0400000000000000#64 = false := by decide

/-- X5.3 to X5.9. -/
theorem test_wf_refuses_unused_bits :
    [0x0000000000000001#64, 0x1131000100000000#64, 0x2001010100000000#64, 0x3101000300020000#64, 0x3201000100100002#64,
      0x4201010100000000#64, 0x2300000000000001#64].all
      (fun w => opcodeKnown w && !unusedBitsClear w && !wordWellFormed w) = true := by decide

theorem test_wf_accepts_spec_words :
    [0x3001000100080000#64, 0x2001001000000000#64, 0x4201000100000000#64, 0x2300000000000000#64].all wordWellFormed
      = true := by decide

/-! ## Decode: each constructor from a word written out from its pattern in R72 -/

theorem test_decode_control :
    decode 0b0000000000000000000000000000000000000000000000000000000000000000#64 = .ok .nop ∧
    decode 0b0000000100000000000000000000000000000000000000000000000000000000#64 = .ok .clrErr ∧
    decode 0b0000001000000000100000000000000100000000000000000000000000000000#64 = .ok (.setChcount 0x8001#16) ∧
    decode 0b0000001100000000000000000000000000000000000000000000000000000000#64 = .ok .softReset := by decide

theorem test_decode_crc :
    decode 0b0001000000000000000000000000000000000000000000000000000000000000#64 = .ok .crcInit ∧
    decode 0b0001000110000001000000000000000000000000000000000000000000000000#64 = .ok (.crcByte 0x81#8) := by decide

theorem test_decode_frame_tx :
    decode 0b0010000010000001000000000100000100000000000000000000000000000000#64 = .ok (.txBegin 0x81#8 0x41#8) ∧
    decode 0b0010000110000001000000000000000000000000000000000000000000000000#64 = .ok (.txByte 0x81#8) ∧
    decode 0b0010001000000000100000000000000100000000000000000000000000000000#64 = .ok (.txU16 0x8001#16) ∧
    decode 0b0010001100000000000000000000000000000000000000000000000000000000#64 = .ok .txEnd ∧
    decode 0b0010010000000000000000000000000000000000000000000000000000000000#64 = .ok .txClear := by decide

theorem test_decode_encoders :
    decode 0b0011000010000001100000000000000101000000000000010000000000000000#64 =
      .ok (.encRc 0x81#8 0x8001#16 0x4001#16) ∧
    decode 0b0011000110000001100000000000000100000000000000010000000000000000#64 =
      .ok (.encWsc 0x81#8 0x8001#16 true) ∧
    decode 0b0011001010000001100000000000000101000000000000010000000000000001#64 =
      .ok (.encWmc 0x81#8 0x8001#16 0x4001#16 true) ∧
    decode 0b0011001110000001100000000000000101000000000000010000000000000000#64 =
      .ok (.encWmr 0x81#8 0x8001#16 0x4001#16) := by decide

theorem test_decode_frame_rx :
    decode 0b0100000000000000000000000000000000000000000000000000000000000000#64 = .ok .rxClear ∧
    decode 0b0100000110000001000000000000000000000000000000000000000000000000#64 = .ok (.rxByte 0x81#8) ∧
    decode 0b0100001010000001000000000100000100000000000000000000000000000000#64 = .ok (.decCheck 0x81#8 0x41#8) ∧
    decode 0b0100001100000000000000000000000000000000000000000000000000000000#64 = .ok .decEcho := by decide

/-- X5.1 and X5.5: the reason a word is ILLEGAL. -/
theorem test_decode_names_the_reason :
    decode 0x0400000000000000#64 = .error .reservedOpcode ∧ decode 0x2001010100000000#64 = .error .unusedBitSet := by decide

/-- The four examples of R77. -/
theorem test_encode_spec_words :
    encode (.encRc 1#8 1#16 8#16) = 0x3001000100080000#64 ∧ encode (.txBegin 1#8 0x10#8) = 0x2001001000000000#64 ∧
    encode (.decCheck 1#8 1#8) = 0x4201000100000000#64 ∧ encode .txEnd = 0x2300000000000000#64 := by decide

theorem test_decodeTableWord : decodeTableWord 64 0x3001000100080000 = some (.encRc 1#8 1#16 8#16) := by decide

/-! ## The CRC -/

/-- X1.1 to X1.4. -/
theorem test_crc_step :
    crcStep 0x0000#16 0x01#8 = 0xC0C1#16 ∧ crcStep 0x0000#16 0x80#8 = 0xA001#16 ∧
    crcStep 0x1234#16 0x56#8 = 0xE993#16 ∧ crcStep 0xFFFF#16 0x31#8 = 0x947E#16 := by decide

/-- X1.12 (R107), the check value. -/
theorem test_crc_check_value :
    crc16 [0x31#8, 0x32#8, 0x33#8, 0x34#8, 0x35#8, 0x36#8, 0x37#8, 0x38#8, 0x39#8] = 0x4B37#16 := by decide +kernel

/-! ## One step of each command -/

/-- X5.10. -/
theorem test_nop_keeps_serr :
    gives (runWord 0x0000000000000000 { afterWsc with res := .illegal, serr := true })
      (fun t => t.status == 0x0090#16) = true := by decide

/-- X5.11. -/
theorem test_clr_err :
    gives (runWord 0x0100000000000000 { State.reset with res := .range, serr := true })
      (fun t => t == State.reset) = true := by decide

/-- X5.12. -/
theorem test_set_chcount_zero :
    gives (runWord 0x0200000000000000 State.reset) (fun t => t.status == 0x0019#16 && t.chcount == 16#16) = true := by decide

/-- X5.13. -/
theorem test_set_chcount_eight :
    gives (runWord 0x0200000800000000 State.reset) (fun t => t.status == 0x0000#16 && t.chcount == 8#16) = true := by decide

/-- X5.14. -/
theorem test_soft_reset :
    gives (runWord 0x0300000000000000 { afterWsc with chcount := 8#16 }) (fun t => t == State.reset) = true := by decide

/-- X1.18. -/
theorem test_crc_init_open :
    gives (runWord 0x1000000000000000 afterBegin) (fun t => t.status == 0x005A#16 && t.crc == 0x23C0#16) = true := by decide

/-- X1.17. -/
theorem test_crc_byte : gives (runWord 0x1131000000000000 State.reset) (fun t => t.crc == 0x947E#16) = true := by decide

/-- X1.20. -/
theorem test_crc_byte_sealed :
    gives (runWord 0x1100000000000000 afterWsc)
      (fun t => t.crc == 0x1D3A#16 && t.status == 0x0080#16 && t.txbuf == afterWsc.txbuf) = true := by decide

/-- X2.1. -/
theorem test_tx_begin :
    gives (runWord 0x2001001000000000 State.reset)
      (fun t => t.txbuf == [0x01#8, 0x10#8] && t.crc == 0xEC01#16 && t.status == 0x0040#16) = true := by decide +kernel

/-- X2.6: the address check comes first. -/
theorem test_tx_begin_config_first :
    gives (runWord 0x20F8008000000000 State.reset) (fun t => t.status == 0x0019#16) = true := by decide

/-- X2.8. -/
theorem test_tx_byte_idle :
    gives (runWord 0x2101000000000000 State.reset) (fun t => t.status == 0x001A#16 && t.txbuf == []) = true := by decide

/-- X2.13: a field that does not fit appends neither byte. -/
theorem test_tx_u16_overflow :
    gives (runWord 0x2200123400000000 (openedWith 253)) (fun t => t.status == 0x0056#16 && t.txbuf.length == 253)
      = true := by decide +kernel

/-- X2.14. -/
theorem test_tx_u16_high_first :
    gives (runWord 0x2200010200000000 { afterBegin with txbuf := [0x01#8, 0x10#8] })
      (fun t => t.txbuf == [0x01#8, 0x10#8, 0x01#8, 0x02#8]) = true := by decide

/-- X2.7: the low byte of the CRC goes first. -/
theorem test_tx_end :
    gives (runWord 0x2300000000000000
        { State.reset with txstate := .opened, txbuf := [0x01#8, 0x41#8], crc := 0x10C0#16 })
      (fun t => t.txbuf == [0x01#8, 0x41#8, 0xC0#8, 0x10#8] && t.txstate == .sealed) = true := by decide

/-- X2.15. -/
theorem test_tx_clear :
    gives (runWord 0x2400000000000000 afterWsc)
      (fun t => t.txbuf == [] && t.status == 0x0000#16 && t.crc == 0xFA2D#16) = true := by decide

/-- X3.1. -/
theorem test_enc_rc :
    gives (runWord 0x3001000100080000 State.reset)
      (fun t => t.txbuf == [0x01#8, 0x01#8, 0x00#8, 0x00#8, 0x00#8, 0x08#8, 0x3D#8, 0xCC#8] && t.status == 0x0080#16)
      = true := by decide +kernel

/-- X3.25: the end of the span is not taken modulo 2^16. -/
theorem test_enc_rc_span_does_not_wrap :
    gives (runWord 0x3001FFFF00020000 (withChannels 65535#16)) (fun t => t.status == 0x0018#16) = true := by decide

/-- X3.11. -/
theorem test_enc_wsc : gives (runWord 0x3101000300010000 State.reset) (fun t => t == afterWsc) = true := by decide +kernel

/-- X3.13: address 0, the last channel, OFF. -/
theorem test_enc_wsc_off :
    gives (runWord 0x3100001000000000 State.reset)
      (fun t => t.txbuf == [0x00#8, 0x05#8, 0x00#8, 0x0F#8, 0x00#8, 0x00#8, 0xFC#8, 0x18#8]) = true := by decide +kernel

/-- X3.17: the unused high bits of the last byte are 0. -/
theorem test_enc_wmc :
    gives (runWord 0x32010001000A0001 State.reset)
      (fun t => t.txbuf == [0x01#8, 0x0F#8, 0x00#8, 0x00#8, 0x00#8, 0x0A#8, 0x02#8, 0xFF#8, 0x03#8, 0xE4#8, 0xC9#8])
      = true := by decide +kernel

/-- X3.29: no range check. -/
theorem test_enc_wmr :
    gives (runWord 0x3301FFFFFFFF0000 State.reset)
      (fun t => t.txbuf ==
        [0x01#8, 0x10#8, 0xFF#8, 0xFF#8, 0x00#8, 0x01#8, 0x02#8, 0xFF#8, 0xFF#8, 0xBC#8, 0xE0#8]) = true := by decide +kernel

/-- X3.30 after X3.11: a failed encoder drops the frame and keeps CRC. -/
theorem test_enc_wmr_drops_the_frame :
    gives (runWord 0x33F8000000000000 afterWsc)
      (fun t => t.txbuf == [] && t.crc == 0xFA2D#16 && t.status == 0x0019#16) = true := by decide

/-- X4.12. -/
theorem test_rx_clear :
    gives (runWord 0x4000000000000000 { received (List.replicate 256 0x00#8) with rxovf := true, serr := true })
      (fun t => t.rxbuf == [] && t.status == 0x0010#16) = true := by decide

/-- X4.10. -/
theorem test_rx_byte_overflow :
    gives (runWord 0x4155000000000000 (received (List.replicate 256 0x00#8)))
      (fun t => t.rxbuf.length == 256 && t.status == 0x0036#16) = true := by decide +kernel

/-- X4.7. -/
theorem test_dec_check_ok :
    gives (runWord 0x4201000100000000 (received [0x01#8, 0x01#8, 0x01#8, 0x05#8, 0x91#8, 0x8B#8]))
      (fun t => t.status == 0x0000#16 && t.plen == 2#16 && t.rxcrc == 0x8B91#16 && regRead 0x203#10 t == 0x0005#16)
      = true := by decide +kernel

/-- X4.8. -/
theorem test_dec_check_exception :
    gives (runWord 0x4201000100000000 (received [0x01#8, 0x81#8, 0x02#8, 0xC1#8, 0x91#8]))
      (fun t => t.status == 0x0213#16 && t.plen == 1#16) = true := by decide +kernel

/-- X4.13. -/
theorem test_dec_echo_mismatch :
    gives (runWord 0x4300000000000000
        { afterWsc with rxbuf := [0x01#8, 0x05#8, 0x00#8, 0x02#8, 0x00#8, 0x00#8, 0x6C#8, 0x0A#8] })
      (fun t => t.status == 0x0097#16 && t.plen == 4#16 && t.rxcrc == 0x0A6C#16) = true := by decide +kernel

/-- P1. -/
theorem test_dec_echo_ok :
    gives (runWord 0x4300000000000000 { afterWsc with rxbuf := afterWsc.txbuf })
      (fun t => t.status == 0x0080#16 && t.plen == 4#16 && t.rxcrc == 0xFA2D#16) = true := by decide +kernel

/-- X5.1 to X5.9. -/
theorem test_illegal_words :
    [0x0400000000000000, 0xFF00000000000000, 0x0000000000000001, 0x1131000100000000, 0x2001010100000000,
      0x3101000300020000, 0x3201000100100002, 0x4201010100000000, 0x2300000000000001].all
      (fun w => gives (runWord w afterWsc)
        (fun t => t.status == 0x009B#16 && t == { afterWsc with res := .illegal, serr := true })) = true := by decide

/-- Section 3.6. -/
theorem test_read_port :
    [(0x000#10, 0x0080#16), (0x001#10, 0xFA2D#16), (0x002#10, 0x0008#16), (0x003#10, 0x0000#16), (0x004#10, 0x0010#16),
      (0x005#10, 0xFFFF#16), (0x006#10, 0x0000#16), (0x007#10, 0x0000#16), (0x0FF#10, 0x0000#16), (0x100#10, 0x0001#16),
      (0x107#10, 0x00FA#16), (0x108#10, 0x0000#16), (0x1FF#10, 0x0000#16), (0x200#10, 0x0000#16), (0x300#10, 0x0000#16),
      (0x3FF#10, 0x0000#16)].all (fun x => regRead x.1 afterWsc == x.2) = true := by decide

/-! ## Each statement's hypotheses can be met -/

theorem test_witness_EncodeOfDecodeIsTheWord : decode 0x3001000100080000#64 = .ok (.encRc 1#8 1#16 8#16) := by decide

theorem test_witness_AtMostOneRowMatches :
    (∃ r ∈ opcodeRows, 0x20F7007F00000000#64 &&& r.mask = r.pattern) ∧
    (∀ r ∈ opcodeRows, 0x2001010100000000#64 &&& r.mask ≠ r.pattern) ∧
    (∀ r ∈ opcodeRows, 0x4400000000000000#64 &&& r.mask ≠ r.pattern) := by decide

theorem test_witness_IllegalWordChangesOnlyResAndSerr :
    (afterWsc.withFetchWord 64 0x2001010100000000).inbox = [.command 0x2001010100000000#64] ∧
    wordWellFormed 0x2001010100000000#64 = false ∧ wordWellFormed 0x4400000000000000#64 = false ∧
    wordWellFormed 0x3201000100100001#64 = true := by decide

/-- Both ends of each reserved range. -/
theorem test_witness_ReservedOpcodesIllegal :
    [(0x0400000000000000#64, 0x04), (0x0F00000000000000#64, 0x0F), (0x1200000000000000#64, 0x12),
      (0x1F00000000000000#64, 0x1F), (0x2500000000000000#64, 0x25), (0x2F00000000000000#64, 0x2F),
      (0x3400000000000000#64, 0x34), (0x3F00000000000000#64, 0x3F), (0x4400000000000000#64, 0x44),
      (0xFF00000000000000#64, 0xFF)].all
      (fun x => (fieldOp x.1).toNat == x.2 && !opcodeKnown x.1) = true := by decide

theorem test_witness_OnlyNopIdles (s : State) : takeCommand 0x0000000000000000#64 s = .next { s with res := .ok } := rfl

theorem test_witness_StepTakesTheNextInput :
    ({ afterWsc with inbox := [.command 0x2300000000000000#64] }.inbox = .command 0x2300000000000000#64 :: [] ∧
      decode 0x2300000000000000#64 = .ok .txEnd) ∧
    ({ afterWsc with inbox := [.command 0x2300000000000001#64] }.inbox = .command 0x2300000000000001#64 :: [] ∧
      decode 0x2300000000000001#64 = .error .unusedBitSet) ∧
    { afterWsc with inbox := [.read 0x3FF#10] }.inbox = .read 0x3FF#10 :: [] ∧
    { afterWsc with inbox := [.powerOnReset] }.inbox = .powerOnReset :: [] ∧ afterWsc.inbox = [] := by decide

theorem test_witness_ReadsChangeNothingAndNeverFault :
    { afterWsc with inbox := [.read 0x107#10, .read 0x000#10, .command 0x0000000000000000#64] }.inbox =
      [0x107#10, 0x000#10].map .read ++ [.command 0x0000000000000000#64] ∧
    (0x007 ≤ (0x007#10).toNat ∧ (0x0FF#10).toNat ≤ 0x0FF) ∧ (0x300 ≤ (0x300#10).toNat ∧ (0x3FF#10).toNat ≤ 0x3FF) ∧
    afterWsc.txbuf.length ≤ (0x108#10).toNat - 0x100 ∧ afterWsc.txbuf.length ≤ (0x1FF#10).toNat - 0x100 ∧
    afterWsc.rxbuf.length ≤ (0x200#10).toNat - 0x200 ∧ afterWsc.rxbuf.length ≤ (0x2FF#10).toNat - 0x200 := by decide

/-- The ends of each range of the map, and both answers of each buffer window. -/
theorem test_witness_ReadPortMap :
    (openedWith 256).txbuf.length ≤ 256 ∧ (received (List.replicate 256 0x00#8)).rxbuf.length ≤ 256 ∧
    (0x007 ≤ (0x007#10).toNat ∧ (0x0FF#10).toNat ≤ 0x0FF) ∧ 0x300 ≤ (0x300#10).toNat ∧ 0x300 ≤ (0x3FF#10).toNat ∧
    regRead 0x1FF#10 { State.reset with txbuf := List.replicate 255 0x00#8 ++ [0xA5#8] } = 0x00A5#16 ∧
    regRead 0x1FF#10 { State.reset with txbuf := List.replicate 255 0xA5#8 } = 0x0000#16 ∧
    regRead 0x2FF#10 (received (List.replicate 255 0x00#8 ++ [0xA5#8])) = 0x00A5#16 ∧
    regRead 0x2FF#10 (received (List.replicate 255 0xA5#8)) = 0x0000#16 := by decide +kernel

/-- The three ways SERR is cleared. -/
theorem test_witness_SerrIsSticky :
    [HostEvent.powerOnReset, .command 0x0100000000000000#64, .command 0x0300000000000000#64].all
      (fun e => gives (step { State.reset with res := .range, serr := true, inbox := [e] }) (fun t => !t.serr))
      = true := by decide

/-- A listed code, and operands that end with it. -/
theorem test_witness_CommandsEndWithTheListedCodes :
    Result.echoMismatch ∈ Instr.decEcho.results ∧ Result.config ∈ (Instr.encWmr 0#8 0#16 0#16).results ∧
    fieldOp (encode (.encWmr 248#8 0#16 0#16)) = fieldOp (encode (.encWmr 0#8 0#16 0#16)) ∧
    gives (exec (.encWmr 248#8 0#16 0#16) State.reset) (fun t => t.res == .config) = true := by decide

theorem test_witness_ElementsHaveOnlyTheirWriters :
    gives (exec .nop afterWsc) (fun _ => true) = true ∧ Instr.nop.writesCrc = false ∧ Instr.nop.writesTx = false ∧
    Instr.nop.writesRx = false ∧ Instr.nop.writesDecode = false ∧ Instr.nop.writesChcount = false := by decide

theorem test_witness_ResetValues : gives (exec .softReset afterWsc) (fun t => t == State.reset) = true := by decide

theorem test_witness_BothResetsSetEveryElement :
    { afterWsc with inbox := [.powerOnReset, .read 0x000#10] }.inbox = .powerOnReset :: [.read 0x000#10] := by decide

theorem test_witness_EveryStepKeepsTheInvariant_idle :
    State.reset.Inv ∧ gives (runWord 0x3101000300010000 State.reset) (fun _ => true) = true := by decide

theorem test_witness_EveryStepKeepsTheInvariant_opened :
    afterBegin.Inv ∧ gives (runWord 0x2300000000000000 afterBegin) (fun _ => true) = true := by decide +kernel

theorem test_witness_EveryStepKeepsTheInvariant_sealed :
    afterWsc.Inv ∧ gives (runWord 0x4300000000000000 afterWsc) (fun _ => true) = true := by decide +kernel

/-- For each command, a word with its opcode and a 1 in an unused bit, at the mask's ends where the mask has two. -/
theorem test_witness_UnusedBitsEndIllegal :
    [(0x00#8, 0x00FFFFFFFFFFFFFF#64, 0x0080000000000000#64), (0x01#8, 0x00FFFFFFFFFFFFFF#64, 0x0100000000000001#64),
      (0x02#8, 0x00FF0000FFFFFFFF#64, 0x0201000100000000#64), (0x02#8, 0x00FF0000FFFFFFFF#64, 0x0200000180000000#64),
      (0x03#8, 0x00FFFFFFFFFFFFFF#64, 0x0300000000000001#64), (0x10#8, 0x00FFFFFFFFFFFFFF#64, 0x1000000000000001#64),
      (0x11#8, 0x0000FFFFFFFFFFFF#64, 0x1131800000000000#64), (0x20#8, 0x0000FF00FFFFFFFF#64, 0x2001010100000000#64),
      (0x20#8, 0x0000FF00FFFFFFFF#64, 0x2001000180000000#64), (0x21#8, 0x0000FFFFFFFFFFFF#64, 0x2101800000000000#64),
      (0x22#8, 0x00FF0000FFFFFFFF#64, 0x2201000100000000#64), (0x23#8, 0x00FFFFFFFFFFFFFF#64, 0x2300000000000001#64),
      (0x24#8, 0x00FFFFFFFFFFFFFF#64, 0x2480000000000000#64), (0x30#8, 0x000000000000FFFF#64, 0x3001000100018000#64),
      (0x31#8, 0x00000000FFFEFFFF#64, 0x3101000300020000#64), (0x31#8, 0x00000000FFFEFFFF#64, 0x3101000300018000#64),
      (0x32#8, 0x000000000000FFFE#64, 0x3201000100100002#64), (0x33#8, 0x000000000000FFFF#64, 0x3301000100018000#64),
      (0x40#8, 0x00FFFFFFFFFFFFFF#64, 0x4000000000000001#64), (0x41#8, 0x0000FFFFFFFFFFFF#64, 0x4101800000000000#64),
      (0x42#8, 0x0000FF00FFFFFFFF#64, 0x4201010100000000#64), (0x43#8, 0x00FFFFFFFFFFFFFF#64, 0x4380000000000000#64)].all
      (fun x => fieldOp x.2.2 == x.1 && x.2.2 &&& x.2.1 != 0#64) = true := by decide

theorem test_witness_SetChcountRefusesZero : 1#16 ≠ 0#16 ∧ 0xFFFF#16 ≠ 0#16 := by decide

/-- CRC_INIT, CRC_BYTE and TX_END, each of the three values of TXSTATE; CRC_OVER, DEC_ECHO. -/
theorem test_witness_TxStates :
    afterBegin.txstate = .opened ∧ afterWsc.txstate = .sealed ∧ State.reset.txstate = .idle ∧
    State.reset.txstate ≠ .opened ∧ afterWsc.txstate ≠ .opened ∧ afterBegin.txstate ≠ .sealed ∧
    State.reset.txstate ≠ .sealed := by decide

theorem test_witness_TableDrivenCrc : crcTable[255]? = some 0x4040#16 := by decide

theorem test_witness_CrcResidue : (0xE0C1#16 : Word) ≠ crc16 [] := by decide

theorem test_witness_TxBeginStartsAFrame :
    247 < (248#8).toNat ∧ (247#8).toNat ≤ 247 ∧ (0x00#8 = 0x00#8 ∨ (0x00#8).getLsbD 7 = true) ∧
    (0x80#8 = 0x00#8 ∨ (0x80#8).getLsbD 7 = true) ∧ (0x01#8 ≠ 0x00#8 ∧ (0x01#8).getLsbD 7 = false) ∧
    (0x7F#8 ≠ 0x00#8 ∧ (0x7F#8).getLsbD 7 = false) := by decide

theorem test_witness_TxByteAppendsOneByte :
    State.reset.txstate ≠ .opened ∧
    ((openedWith 254).txstate = .opened ∧ 254 < (openedWith 254).txbuf.length + 1) ∧
    ((openedWith 253).txstate = .opened ∧ (openedWith 253).txbuf.length + 1 ≤ 254) := by decide +kernel

theorem test_witness_TxU16AppendsHighByteFirst :
    State.reset.txstate ≠ .opened ∧
    ((openedWith 253).txstate = .opened ∧ 254 < (openedWith 253).txbuf.length + 2) ∧
    ((openedWith 252).txstate = .opened ∧ (openedWith 252).txbuf.length + 2 ≤ 254) := by decide +kernel

/-- The broken assembly, and the hypotheses of the second part at the largest payload. -/
theorem test_witness_AssemblyProducesTheFrame :
    (∀ i ∈ mixedAssembly,
      i.appendsPayload = true ∨ (i.isTx = false ∧ i.isEncoder = false)) ∧
    (execTxOk (.txBegin 1#8 0x10#8 :: mixedAssembly ++ [.txEnd])
      State.reset).isSome = true ∧
    (247#8).toNat ≤ 247 ∧ 1 ≤ (0x7F#8).toNat ∧ (0x7F#8).toNat ≤ 0x7F ∧
    ((List.replicate 126 (Instr.txU16 0x0102#16)).flatMap Instr.payload).length ≤ 252 ∧
    Instr.softReset ∉ mixedAssembly := by decide +kernel

theorem test_witness_UnbrokenAssemblyChangesOnlyTheFrame :
    (execAllOk (.txBegin 1#8 0x10#8 :: [Sum.inl 0xAA#8, Sum.inr 0x0102#16].map PayloadItem.command ++ [.txEnd])
      State.reset).isSome = true ∧
    ((List.replicate 126 (Sum.inr 0x0102#16 : PayloadItem)).flatMap PayloadItem.bytes).length ≤ 252 := by decide +kernel

theorem test_witness_PayloadCapacity :
    (execAllOk (txFrame 1#8 0x41#8 []) State.reset).isSome = true ∧ (247#8).toNat ≤ 247 ∧ 1 ≤ (0x01#8).toNat ∧
    (0x7F#8).toNat ≤ 0x7F := by decide

theorem test_witness_EncWmrNBuildsTheRegisterFrame :
    (247#8).toNat ≤ 247 ∧ 1 ≤ [0x000A#16].length ∧ (List.replicate 123 0x000A#16).length ≤ 123 := by decide +kernel

/-- Both ends of an encoder. -/
theorem test_witness_EncodersDropTheOldFrame :
    (Instr.encRc 248#8 1#16 1#16).isEncoder = true ∧
    gives (exec (.encRc 248#8 1#16 1#16) afterWsc) (fun t => t.res == .config) = true ∧
    gives (exec (.encRc 1#8 17#16 1#16) afterWsc) (fun t => t.res == .range) = true ∧
    gives (exec (.encRc 1#8 16#16 1#16) afterWsc) (fun t => t.res == .ok) = true := by decide

theorem test_witness_WireOffsetDoesNotWrap :
    chanOk 65535#16 (65535#16).toNat = true ∧ chanOk 1#16 (1#16).toNat = true := by decide

/-- ENC_RC and ENC_WMC: each way to be out of range by one, with CHCOUNT 16 or the largest quantity's. -/
theorem test_witness_EncRc_range :
    247 < (248#8).toNat ∧ (247#8).toNat ≤ 247 ∧ (0#16).toNat = 0 ∧ State.reset.chcount.toNat < (17#16).toNat ∧
    2000 < (2001#16).toNat ∧ 1968 < (1969#16).toNat ∧
    State.reset.chcount.toNat + 1 < (16#16).toNat + (2#16).toNat := by decide

theorem test_witness_EncRc_ok :
    (1 ≤ (16#16).toNat ∧ (16#16).toNat ≤ State.reset.chcount.toNat ∧ 1 ≤ (1#16).toNat ∧ (1#16).toNat ≤ 2000 ∧
      (16#16).toNat + (1#16).toNat ≤ State.reset.chcount.toNat + 1) ∧
    (1 ≤ (1#16).toNat ∧ (1#16).toNat ≤ (withChannels 2000#16).chcount.toNat ∧ (2000#16).toNat ≤ 2000 ∧
      (1#16).toNat + (2000#16).toNat ≤ (withChannels 2000#16).chcount.toNat + 1) := by decide

theorem test_witness_EncWsc :
    247 < (248#8).toNat ∧ (0#16).toNat = 0 ∧ State.reset.chcount.toNat < (17#16).toNat ∧
    (247#8).toNat ≤ 247 ∧ 1 ≤ (16#16).toNat ∧ (16#16).toNat ≤ State.reset.chcount.toNat := by decide

theorem test_witness_EncWmc_ok :
    (247#8).toNat ≤ 247 ∧ 1 ≤ (1#16).toNat ∧ (1#16).toNat ≤ (withChannels 1968#16).chcount.toNat ∧
    1 ≤ (1968#16).toNat ∧ (1968#16).toNat ≤ 1968 ∧
    (1#16).toNat + (1968#16).toNat ≤ (withChannels 1968#16).chcount.toNat + 1 := by decide

theorem test_witness_EncWmcSetsEveryCoilOfTheSpan :
    gives (exec (.encWmc 1#8 1#16 10#16 true) State.reset) (fun t => t.res == .ok) = true ∧
    15 < 8 * (((10#16).toNat + 7) / 8) := by decide

theorem test_witness_EncWmr : 247 < (248#8).toNat ∧ (247#8).toNat ≤ 247 := by decide

theorem test_witness_RxByteAppendsOrOverflows :
    (received (List.replicate 256 0x00#8)).rxbuf.length = 256 ∧
    (received (List.replicate 255 0x00#8)).rxbuf.length ≠ 256 := by decide +kernel

theorem test_witness_RxFrameCapturesTheBytes : (List.replicate 256 0x55#8).length = 256 := by decide +kernel

/-- OVERFLOW, SHORT_FRAME at three bytes, then the CRC, address and function checks (X4.1, X4.3, X4.4, X4.6, X4.7). -/
theorem test_witness_DecCheck_checks :
    { received [] with rxovf := true }.rxovf = true ∧
    ((received [0x01#8, 0x01#8, 0x00#8]).rxovf = false ∧ (received [0x01#8, 0x01#8, 0x00#8]).rxbuf.length < 4) ∧
    crc16 ([0x01#8, 0x01#8] ++ [0x01#8, 0x05#8]) ≠ (0x74#8 ++ 0x6E#8 : BitVec 16) ∧
    (crc16 ([0x02#8, 0x01#8] ++ [0x01#8, 0x05#8]) = (0xCF#8 ++ 0x91#8 : BitVec 16) ∧ 0x02#8 ≠ 0x01#8) ∧
    (crc16 ([0x01#8, 0x02#8] ++ [0x01#8, 0x05#8]) = (0x8B#8 ++ 0x61#8 : BitVec 16) ∧ (0x02#8).getLsbD 7 = false ∧
      0x02#8 ≠ 0x01#8) ∧
    (crc16 ([0x01#8, 0x01#8] ++ [0x01#8, 0x05#8]) = (0x8B#8 ++ 0x91#8 : BitVec 16) ∧
      (0x01#8).getLsbD 7 = false) := by decide +kernel

/-- Four bytes: an empty payload (X4.2), and the exception forms (X4.8, X4.9). -/
theorem test_witness_DecCheck_short_and_exception :
    crc16 ([0x01#8, 0x01#8] ++ []) = (0xE0#8 ++ 0xC1#8 : BitVec 16) ∧
    (crc16 ([0x01#8, 0x81#8] ++ []) = (0x40#8 ++ 0xC0#8 : BitVec 16) ∧ (0x81#8).getLsbD 7 = true) ∧
    crc16 ([0x01#8, 0x81#8] ++ [0x02#8]) = (0x91#8 ++ 0xC1#8 : BitVec 16) := by decide +kernel

/-- P1, X4.13 and X4.14: an OK decode that is the request, one that is not, and a decode that is not OK. -/
theorem test_witness_DecEchoChecksTheEcho :
    (afterWsc.txstate = .sealed ∧
      afterWsc.txbuf = 0x01#8 :: 0x05#8 :: [0x00#8, 0x02#8, 0xFF#8, 0x00#8, 0x2D#8, 0xFA#8]) ∧
    gives (exec (.decCheck 0x01#8 0x05#8) { afterWsc with rxbuf := afterWsc.txbuf }) (fun t => t.res == .ok) = true ∧
    gives (exec (.decCheck 0x01#8 0x05#8)
      { afterWsc with rxbuf := [0x01#8, 0x05#8, 0x00#8, 0x02#8, 0x00#8, 0x00#8, 0x6C#8, 0x0A#8] })
      (fun t => t.res == .ok && t.rxbuf != t.txbuf) = true ∧
    gives (exec (.decCheck 0x01#8 0x05#8) { afterWsc with rxbuf := [0x01#8, 0x85#8, 0x02#8, 0xC3#8, 0x51#8] })
      (fun t => t.res == .exception) = true := by decide +kernel

theorem test_witness_TrueEchoIsAccepted :
    { afterWsc with rxbuf := afterWsc.txbuf }.TxInv ∧ { afterWsc with rxbuf := afterWsc.txbuf }.rxovf = false := by decide +kernel

theorem test_witness_CrcIsLowByteFirst :
    (afterBegin.TxInv ∧ afterBegin.txstate = .opened) ∧
    (Instr.encWsc 1#8 3#16 true).isEncoder = true ∧
    gives (exec (.encWsc 1#8 3#16 true) State.reset) (fun t => t.res == .ok) = true := by decide +kernel

/-- Each clause's result, on frames of section 3.4. -/
theorem test_witness_PayloadSlice :
    (Instr.decCheck 1#8 1#8).isDecode = true ∧ Instr.decEcho.isDecode = true ∧
    (received (List.replicate 256 0x00#8)).rxbuf.length ≤ 256 ∧
    [([0x01#8, 0x01#8, 0x01#8, 0x05#8, 0x91#8, 0x8B#8], Result.ok), ([0x01#8, 0x81#8, 0x02#8, 0xC1#8, 0x91#8], .exception),
      ([0x01#8, 0x02#8, 0x01#8, 0x05#8, 0x61#8, 0x8B#8], .funcMismatch), ([0x01#8, 0x81#8, 0xC0#8, 0x40#8], .shortFrame),
      ([0x01#8, 0x01#8, 0x01#8, 0x05#8, 0x6E#8, 0x74#8], .crcMismatch),
      ([0x02#8, 0x01#8, 0x01#8, 0x05#8, 0x91#8, 0xCF#8], .addrMismatch)].all
      (fun x => gives (exec (.decCheck 1#8 1#8) (received x.1)) (fun t => t.res == x.2)) = true := by decide +kernel

/-- A response of X4.7 for DEC_CHECK, and the echo of E2 (P7) for DEC_ECHO. -/
theorem test_witness_ChangedCrcBytesAreCaught :
    gives (exec (.decCheck 1#8 1#8) (received ([0x01#8, 0x01#8, 0x01#8, 0x05#8] ++ [0x91#8, 0x8B#8])))
      (fun t => t.res == .ok) = true ∧ (0x90#8 ≠ 0x91#8 ∨ 0x8B#8 ≠ 0x8B#8) ∧ Instr.decEcho.isDecode = true ∧
    gives (exec .decEcho { afterWsc with
      rxbuf := [0x01#8, 0x05#8, 0x00#8, 0x02#8, 0xFF#8, 0x00#8] ++ [0x2D#8, 0xFA#8] })
      (fun t => t.res == .ok) = true ∧ (0xD2#8 ≠ 0x2D#8 ∨ 0x05#8 ≠ 0xFA#8) := by decide +kernel

theorem test_witness_WellFormedResponseDecodesOk :
    (0x7F#8).getLsbD 7 = false ∧ (List.replicate 252 0x00#8).length ≤ 252 ∧
    (received (withCrc ([1#8, 0x7F#8] ++ List.replicate 252 0x00#8))).rxovf = false := by decide +kernel

/-- A frame just built, and the same frame after a command that failed (X2.9: TX_END gives SEQUENCE, frame intact). -/
theorem test_witness_TransmittableFrameIsSound :
    (State.reset.TxInv ∧ gives (runWord 0x3101000300010000 State.reset) (fun t => t.requestToSend == some afterWsc.txbuf)
      = true) ∧
    (afterWsc.TxInv ∧ gives (runWord 0x2300000000000000 afterWsc)
      (fun t => t.res == .sequence && t.requestToSend == some afterWsc.txbuf) = true) := by decide +kernel

/-- Both cases of the step, and a run that builds a frame and then fails (X2.9). -/
theorem test_witness_SealedFrameWasBuiltOk :
    State.reset.mayTransmit = false ∧ afterWsc.mayTransmit = true ∧
    gives (runWord 0x2300000000000000 afterWsc) (·.mayTransmit) = true ∧
    gives (runWord 0x3101000300010000 State.reset) (·.mayTransmit) = true ∧
    gives (Host.Core.run Sys2Proof.core 2
      { State.reset with inbox := [.command 0x3101000300010000#64, .command 0x2300000000000000#64] })
      (·.mayTransmit) = true := by decide +kernel

end Sys2Proof.Tests
end

section
/-! PROOFS. A well-formed response decodes OK and gives its payload back (spec/00_scope.md R13, 43_frame_rx.md R175,
R176). -/

namespace Sys2Proof.Machine

/-! ## DEC_CHECK -/

/-- The meaning of DEC_CHECK: the decode function's state, ended with the decode function's result. -/
theorem exec_decCheck (a fc : Byte) (s : State) :
    exec (.decCheck a fc) s = .next (record (rxDecode a fc s).1 (rxDecode a fc s).2) := rfl

/-! ## A response frame -/

/-- A frame written out as an address, a function code, a payload and the two CRC bytes, low byte first. -/
theorem frame_eq_parts (a fc : Byte) (p : List Byte) :
    frame a fc p = a :: fc :: (p ++ [lo8 (crc16 (a :: fc :: p)), hi8 (crc16 (a :: fc :: p))]) := rfl

theorem take_drop_frame (a fc : Byte) (p : List Byte) : ((frame a fc p).drop 2).take p.length = p := by
  simp [frame_eq_parts]

/-- A frame with the expected address and the expected request function code passes every check of `rx_decode`: its
embedded CRC is the CRC of its body, so only the header checks remain, and they compare equal values. -/
theorem rxDecode_of_frame {ea ef : Byte} {p : List Byte} {s : State} (hs : s.rxbuf = frame ea ef p)
    (ho : s.rxovf = false) (hf : ef.getLsbD 7 = false) :
    rxDecode ea ef s =
      (.ok, { s with exc := 0#8, plen := BitVec.ofNat 16 p.length, rxcrc := crc16 (ea :: ef :: p) }) := by
  rw [frame_eq_parts] at hs
  rw [rxDecode_parts ea ef _ _ _ _ _ s hs ho, hi8_append_lo8, if_neg (not_not_intro rfl),
    rxHeader_parts ea ef ea ef p _ _ { s with exc := 0#8, plen := 0#16, rxcrc := crc16 (ea :: ef :: p) } hs]
  simp only [ne_eq, not_true_eq_false, if_false, hf, Bool.false_eq_true]

/-- DEC_CHECK of such a frame, with its whole next state. -/
theorem exec_decCheck_of_frame {a fc : Byte} {p : List Byte} {s : State} (hs : s.rxbuf = frame a fc p)
    (ho : s.rxovf = false) (hf : fc.getLsbD 7 = false) :
    exec (.decCheck a fc) s =
      .next { s with exc := 0#8, plen := BitVec.ofNat 16 p.length, rxcrc := crc16 (a :: fc :: p), res := .ok } := by
  rw [exec_decCheck, rxDecode_of_frame hs ho hf, record_ok]

/-- Settles O55: every check of DEC_CHECK passes on the frame, and PLEN, at most 252, does not wrap in 16 bits. -/
theorem wellFormedResponseDecodesOk : Obligations.WellFormedResponseDecodesOk := by
  intro a fc p s hf hp hs ho
  have hs : s.rxbuf = frame a fc p := hs
  have hn : (BitVec.ofNat 16 p.length).toNat = p.length := by
    rw [BitVec.toNat_ofNat, Nat.mod_eq_of_lt (by omega)]
  refine ⟨_, exec_decCheck_of_frame hs ho hf, rfl, hn, ?_⟩
  rw [hn, hs, take_drop_frame]

end Sys2Proof.Machine
end

section
/-! PROOFS. What a step does with each input of the host (spec/10_state.md R20, 20_memory.md R53, 30_encoding.md R73,
R74, 70_reset_and_hazards.md R251). -/

namespace Sys2Proof.Machine

theorem takeCommand_of_decode {w : CommandWord} {i : Instr} (h : decode w = .ok i) (s : State) :
    takeCommand w s = exec i s := by
  rw [takeCommand, h]

theorem takeCommand_of_reject {w : CommandWord} {e : Reject} (h : decode w = .error e) (s : State) :
    takeCommand w s = .next (record .illegal s) := by
  rw [takeCommand, h, finish]

theorem step_of_empty {s : State} (h : s.inbox = []) : step s = .next s := by
  rw [step, h]

theorem step_of_command {s : State} {w : CommandWord} {rest : List HostEvent} (h : s.inbox = .command w :: rest) :
    step s = takeCommand w { s with inbox := rest } := by
  rw [step, h]

theorem step_of_read {s : State} {a : PortAddr} {rest : List HostEvent} (h : s.inbox = .read a :: rest) :
    step s = .next (answerRead a { s with inbox := rest }) := by
  rw [step, h]

theorem step_of_powerOnReset {s : State} {rest : List HostEvent} (h : s.inbox = .powerOnReset :: rest) :
    step s = .next (resetBlock { s with inbox := rest }) := by
  rw [step, h]

/-- Settles O7: one clause for each head of the inbox. No value of the read port depends on the inbox. -/
theorem stepTakesTheNextInput : Obligations.StepTakesTheNextInput := by
  intro s rest
  refine ⟨fun w i h hd => ?_, fun w e h hd => ?_, fun a h => ?_, fun h => ?_, step_of_empty⟩
  · rw [step_of_command h, takeCommand_of_decode hd]
  · rw [step_of_command h, takeCommand_of_reject hd, record_of_ne_ok (by decide)]
  · rw [step_of_read h]; rfl
  · rw [step_of_powerOnReset h]; rfl

end Sys2Proof.Machine
end

section
/-! PROOFS. What a command can do to the elements before its result is recorded, said once for all nineteen commands
(spec/40_crc.md to 44_control.md), and that every command ends by recording a result (60_exceptions.md R224). -/

namespace Sys2Proof.Machine

/-- `CommandEffect i s u`: the command `i` may turn `s` into `u` before it records its result. Each update carries what
the command's own checks have established of the state and of the operands. -/
inductive CommandEffect (i : Instr) (s : State) : State → Prop
  | unchanged : CommandEffect i s s
  | clearSerr (hi : i = .clrErr) : CommandEffect i s { s with serr := false }
  | setChcount (b : Word) (hi : i = .setChcount b) (hb : b ≠ 0#16) : CommandEffect i s { s with chcount := b }
  | reset (hi : i = .softReset) : CommandEffect i s (resetBlock s)
  | setCrc (c : Word) (hc : i.writesCrc = true) (hs : s.txstate ≠ .opened) : CommandEffect i s { s with crc := c }
  | discard (ht : i.writesTx = true) : CommandEffect i s (txDiscard s)
  | openFrame (a fc : Byte) (hi : i = .txBegin a fc) (ha : addrBad a = false) (hf : requestFcBad fc = false) :
      CommandEffect i s (txBegin a fc (txDiscard s))
  | append (m : List Byte) (hi : i.appendsPayload = true) (hs : s.txstate = .opened)
      (hm : s.txbuf.length + m.length ≤ Config.nbuf - 2) : CommandEffect i s (txPushAll m s)
  | sealFrame (hi : i = .txEnd) (hs : s.txstate = .opened) : CommandEffect i s (txSeal s)
  | buildFrame (a fc : Byte) (p : List Byte) (hi : i.isEncoder = true) (ha : addrBad a = false)
      (hf : requestFcBad fc = false) (hp : p.length ≤ 252) :
      CommandEffect i s (txSeal (txPushAll p (txBegin a fc (txDiscard s))))
  | clearRx (hi : i = .rxClear) : CommandEffect i s { s with rxbuf := [], rxovf := false }
  | overflowRx (a : Byte) (hi : i = .rxByte a) (hl : s.rxbuf.length = Config.nbuf) :
      CommandEffect i s { s with rxovf := true }
  | captureRx (a : Byte) (hi : i = .rxByte a) (hl : s.rxbuf.length ≠ Config.nbuf) :
      CommandEffect i s { s with rxbuf := s.rxbuf ++ [a] }
  | decode (ea ef : Byte) (hi : i.isDecode = true) : CommandEffect i s (rxDecode ea ef s).2

/-- The outcome is a next state: an effect of the command with a result recorded on it. -/
def Completes (i : Instr) (s : State) (o : Host.Outcome State Fault Refusal) : Prop :=
  ∃ code u, CommandEffect i s u ∧ o = .next (record code u)

theorem completes_finish {i : Instr} {s u : State} (code : Result) (h : CommandEffect i s u) :
    Completes i s (finish code u) := ⟨code, u, h, rfl⟩

/-! ## The encoders -/

theorem writesTx_of_isEncoder {i : Instr} (h : i.isEncoder = true) : i.writesTx = true := by
  cases i <;> simp_all [Instr.isEncoder, Instr.writesTx]

@[simp] theorem length_beBytes (v : Word) : (beBytes v).length = 2 := rfl

@[simp] theorem length_coilBytes (q : Nat) (on : Bool) : (coilBytes q on).length = (q + 7) / 8 := by
  simp [coilBytes, ceilDiv8, Nat.shiftRight_eq_div_pow]

theorem le_of_spanOk {count : Word} {start q qmax : Nat} (h : spanOk count start q qmax = true) : q ≤ qmax := by
  simp only [spanOk, Bool.and_eq_true, decide_eq_true_eq] at h
  exact h.1.2

theorem completes_runEncoder {i : Instr} (hi : i.isEncoder = true) (s : State) (a : Byte) {okay : Bool} {fc : Byte}
    {p : List Byte} (hf : requestFcBad fc = false) (hp : okay = true → p.length ≤ 252) :
    Completes i s (runEncoder a okay fc p s) := by
  have ht := writesTx_of_isEncoder hi
  unfold runEncoder
  split_ifs with ha ho
  · exact completes_finish .config (.discard ht)
  · exact completes_finish .range (.discard ht)
  · exact completes_finish .ok (.buildFrame a fc p hi (by simpa using ha) hf (hp (by simpa using ho)))

/-! ## Every command -/

/-- Every command completes, with one of the effects above. -/
theorem completes_exec (i : Instr) (s : State) : Completes i s (exec i s) := by
  cases i with
  | nop => exact completes_finish .ok .unchanged
  | clrErr => exact completes_finish .ok (.clearSerr rfl)
  | setChcount b =>
    change Completes _ s (execSetChcount b s)
    unfold execSetChcount
    split_ifs with hb
    · exact completes_finish .config .unchanged
    · exact completes_finish .ok (.setChcount b rfl hb)
  | softReset => exact completes_finish .ok (.reset rfl)
  | crcInit =>
    change Completes _ s (execCrcInit s)
    unfold execCrcInit
    split_ifs with hs
    · exact completes_finish .sequence .unchanged
    · exact completes_finish .ok (.setCrc _ rfl hs)
  | crcByte a =>
    change Completes _ s (execCrcByte a s)
    unfold execCrcByte
    split_ifs with hs
    · exact completes_finish .sequence .unchanged
    · exact completes_finish .ok (.setCrc _ rfl hs)
  | txBegin a fc =>
    change Completes _ s (execTxBegin a fc s)
    unfold execTxBegin
    split_ifs with ha hf
    · exact completes_finish .config (.discard rfl)
    · exact completes_finish .range (.discard rfl)
    · exact completes_finish .ok (.openFrame a fc rfl (by simpa using ha) (by simpa using hf))
  | txByte a =>
    change Completes _ s (execTxByte a s)
    unfold execTxByte
    split_ifs with hs hl
    · exact completes_finish .sequence .unchanged
    · exact completes_finish .overflow .unchanged
    · exact completes_finish .ok (.append [a] rfl (not_not.1 hs) (Nat.not_lt.1 hl))
  | txU16 b =>
    change Completes _ s (execTxU16 b s)
    unfold execTxU16
    split_ifs with hs hl
    · exact completes_finish .sequence .unchanged
    · exact completes_finish .overflow .unchanged
    · exact completes_finish .ok (.append (beBytes b) rfl (not_not.1 hs) (Nat.not_lt.1 hl))
  | txEnd =>
    change Completes _ s (execTxEnd s)
    unfold execTxEnd
    split_ifs with hs
    · exact completes_finish .sequence .unchanged
    · exact completes_finish .ok (.sealFrame rfl (not_not.1 hs))
  | txClear => exact completes_finish .ok (.discard rfl)
  | encRc a b c => exact completes_runEncoder rfl s a (by decide) fun _ => by simp
  | encWsc a b on => exact completes_runEncoder rfl s a (by decide) fun _ => by simp
  | encWmc a b c on =>
    refine completes_runEncoder rfl s a (by decide) fun h => ?_
    have hq : c.toNat ≤ 1968 := le_of_spanOk h
    simp only [List.length_append, length_beBytes, length_coilBytes, List.length_singleton]
    omega
  | encWmr a b c => exact completes_runEncoder rfl s a (by decide) fun _ => by simp
  | rxClear => exact completes_finish .ok (.clearRx rfl)
  | rxByte a =>
    change Completes _ s (execRxByte a s)
    unfold execRxByte
    split_ifs with hl
    · exact completes_finish .overflow (.overflowRx a rfl hl)
    · exact completes_finish .ok (.captureRx a rfl hl)
  | decCheck a fc => exact completes_finish _ (.decode a fc rfl)
  | decEcho =>
    change Completes _ s (execDecEcho s)
    unfold execDecEcho
    split_ifs with hs
    · exact completes_finish .sequence .unchanged
    · exact completes_finish _ (.decode _ _ rfl)

/-- The inversion of a command's run: its next state is one of its effects with a result recorded. -/
theorem effect_of_exec {i : Instr} {s t : State} (h : exec i s = .next t) :
    ∃ code u, CommandEffect i s u ∧ t = record code u := by
  obtain ⟨code, u, hu, he⟩ := completes_exec i s
  exact ⟨code, u, hu, by simpa [h] using he⟩

/-- A command word completes like the command it decodes to; a word that is no command records ILLEGAL on the unchanged
state, as an effect NOP has too. -/
theorem takeCommand_cases (w : CommandWord) (s : State) :
    ∃ i code u, CommandEffect i s u ∧ takeCommand w s = .next (record code u) := by
  cases hd : decode w with
  | ok i =>
    obtain ⟨code, u, hu, he⟩ := completes_exec i s
    exact ⟨i, code, u, hu, (takeCommand_of_decode hd s).trans he⟩
  | error e => exact ⟨.nop, .illegal, s, .unchanged, takeCommand_of_reject hd s⟩

end Sys2Proof.Machine
end

section
/-! PROOFS. No input stops the block, and what every input keeps, every step keeps (spec/10_state.md R20,
60_exceptions.md R224, R228, 70_reset_and_hazards.md R270). -/

namespace Sys2Proof.Machine

/-! ## The host's side of the ports -/

theorem CommandEffect.inbox_reads {i : Instr} {s u : State} (h : CommandEffect i s u) :
    u.inbox = s.inbox ∧ u.reads = s.reads := by
  cases h with
  | decode ea ef hi =>
    obtain ⟨e, n, c, hf⟩ := rxDecode_frame ea ef s
    simp [hf]
  | append m => simp [txPushAll_eq]
  | buildFrame a fc p => simp [txPushAll_eq]
  | _ => simp

/-! ## Completion -/

/-- A step answers a next state and takes the head of the inbox. -/
theorem step_completes (s : State) : ∃ t, step s = .next t ∧ t.inbox = s.inbox.tail := by
  cases h : s.inbox with
  | nil => exact ⟨s, step_of_empty h, h⟩
  | cons e rest =>
    cases e with
    | command w =>
      obtain ⟨i, code, u, hu, he⟩ := takeCommand_cases w { s with inbox := rest }
      exact ⟨record code u, (step_of_command h).trans he, by simp [hu.inbox_reads]⟩
    | read a => exact ⟨_, step_of_read h, rfl⟩
    | powerOnReset => exact ⟨_, step_of_powerOnReset h, rfl⟩

theorem run_succ_of_step {s t : State} (h : step s = .next t) (n : Nat) :
    Host.Core.run core (n + 1) s = Host.Core.run core n t := by
  have h' : core.step s = .next t := h
  simp only [Host.Core.run, h']

/-- As many steps as there are inputs take them all. -/
theorem run_completes (n : Nat) (s : State) (hn : s.inbox.length = n) :
    ∃ t, Host.Core.run core n s = .next t ∧ t.inbox = [] := by
  induction n generalizing s with
  | zero => exact ⟨s, rfl, List.eq_nil_of_length_eq_zero hn⟩
  | succ n ih =>
    obtain ⟨t, ht, hi⟩ := step_completes s
    rw [run_succ_of_step ht]
    exact ih t (by rw [hi, List.length_tail, hn, Nat.add_sub_cancel])

/-- Settles O8, by induction on the number of inputs. -/
theorem everyQueuedInputCompletes : Obligations.EveryQueuedInputCompletes :=
  ⟨step_completes, fun s => run_completes _ s rfl⟩

/-! ## What a step keeps -/

/-- A predicate every step keeps: it does not speak of the host's side of the ports, it holds of the reset state, and
every command's effect keeps it, whatever result is recorded. -/
theorem step_keeps {P : State → Prop} (hports : ∀ s es rs, P s → P { s with inbox := es, reads := rs })
    (hreset : P State.reset) (heffect : ∀ i s u code, P s → CommandEffect i s u → P (record code u))
    {s t : State} (hs : P s) (h : step s = .next t) : P t := by
  cases hi : s.inbox with
  | nil =>
    rw [step_of_empty hi] at h
    cases h
    exact hs
  | cons e rest =>
    cases e with
    | command w =>
      obtain ⟨i, code, u, hu, he⟩ := takeCommand_cases w { s with inbox := rest }
      rw [step_of_command hi, he] at h
      cases h
      exact heffect i _ u code (hports s rest s.reads hs) hu
    | read a =>
      rw [step_of_read hi] at h
      cases h
      exact hports s rest _ hs
    | powerOnReset =>
      rw [step_of_powerOnReset hi] at h
      cases h
      exact hports State.reset rest s.reads hreset

end Sys2Proof.Machine
end

section
/-! PROOFS. Every effect of a command keeps the invariants, and so does every step (spec/10_state.md R25, R26, R28, R30,
43_frame_rx.md R172, 60_exceptions.md R224). -/

namespace Sys2Proof.Machine

/-- The transmit-side invariants speak of CRC, TXBUF and TXSTATE only, and of CRC only while a frame is OPEN. -/
theorem txInv_of_eq {s u : State} (hs : s.TxInv) (hb : u.txbuf = s.txbuf) (ht : u.txstate = s.txstate)
    (hc : s.txstate = .opened → u.crc = s.crc) : u.TxInv := by
  obtain ⟨h1, h2, h3, h4⟩ := hs
  simp only [State.TxInv, hb, ht]
  exact ⟨h1, fun ho => hc ho ▸ h2 ho, h3, h4⟩

/-- R25's bullets over every effect. CRC is written apart from a frame only when none is OPEN. -/
theorem txInv_of_effect {i : Instr} {s u : State} (hs : s.TxInv) (h : CommandEffect i s u) : u.TxInv := by
  cases h with
  | unchanged | clearSerr | setChcount | clearRx | overflowRx | captureRx => exact hs
  | reset => exact txInv_of_empty rfl rfl
  | setCrc c _ ho => exact txInv_of_eq hs rfl rfl fun h => absurd h ho
  | discard => exact txInv_txDiscard s
  | openFrame a fc _ ha hf => exact txInv_txBegin ha hf _
  | append m _ ho hm => exact txInv_txPushAll hs ho m hm
  | sealFrame _ ho => exact txInv_txSeal hs ho
  | buildFrame a fc p _ ha hf hp =>
    rw [txSeal_txPushAll_txBegin]
    exact txInv_of_frame rfl rfl ha hf hp
  | decode ea ef => exact (txInv_rxDecode ea ef).2 hs

/-- The receive side's ranges speak of RXBUF, PLEN and RXOVF only. -/
theorem rxInv_of_effect {i : Instr} {s u : State} (hs : s.RxInv) (h : CommandEffect i s u) : u.RxInv := by
  obtain ⟨hlen, hplen, hovf⟩ := hs
  cases h with
  | unchanged | clearSerr | setChcount | setCrc | discard | openFrame | sealFrame => exact ⟨hlen, hplen, hovf⟩
  | append m => rw [txPushAll_eq]; exact ⟨hlen, hplen, hovf⟩
  | buildFrame a fc p => rw [txPushAll_eq]; exact ⟨hlen, hplen, hovf⟩
  | reset => exact rxInv_of_empty (by simp [State.reset]) rfl rfl
  | clearRx => exact rxInv_of_empty hplen rfl rfl
  | overflowRx a _ hfull => exact ⟨hlen, hplen, fun _ => hfull⟩
  | captureRx a _ hroom =>
    refine ⟨?_, hplen, fun ho => absurd (hovf ho) hroom⟩
    simp only [List.length_append, List.length_singleton]
    omega
  | decode ea ef => exact rxInv_rxDecode ⟨hlen, hplen, hovf⟩ ea ef

theorem chcount_of_effect {i : Instr} {s u : State} (h : CommandEffect i s u) :
    u.chcount = s.chcount ∨ i.writesChcount = true ∧ u.chcount ≠ 0#16 := by
  cases h with
  | setChcount b hi hb => exact .inr ⟨hi ▸ rfl, hb⟩
  | reset hi => exact .inr ⟨hi ▸ rfl, by simp [State.reset]⟩
  | append m => simp [txPushAll_eq]
  | buildFrame a fc p => simp [txPushAll_eq]
  | _ => simp

/-- Settles O19: the four bullets do not speak of the ports, hold of the reset state, and every command's effect keeps
them; a recorded result is no part of them. -/
theorem everyStepKeepsTxInvariants : Obligations.EveryStepKeepsTxInvariants := fun _ _ =>
  step_keeps (fun _ _ _ h => h) (txInv_of_empty rfl rfl) fun _ _ _ _ hs hu =>
    (txInv_record ..).2 (txInv_of_effect hs hu)

/-- Settles O20. The three parts are kept apart from one another; a failed command sets SERR as it is recorded. -/
theorem everyStepKeepsTheInvariant : Obligations.EveryStepKeepsTheInvariant := by
  intro s t
  refine step_keeps (fun _ _ _ h => h) ⟨txInv_of_empty rfl rfl, rxInv_of_empty (by decide) rfl rfl, by decide⟩ ?_
  rintro i s u code ⟨htx, hrx, hchcount, -⟩ hu
  have hu0 : u.chcount ≠ 0#16 := by
    rcases chcount_of_effect hu with h | ⟨-, h⟩
    · rwa [h]
    · exact h
  exact ⟨(txInv_record ..).2 (txInv_of_effect htx hu), (rxInv_record ..).2 (rxInv_of_effect hrx hu),
    controlInv_record code hu0⟩

end Sys2Proof.Machine
end

section
/-! PROOFS. Each element has only the writers its rule lists (spec/10_state.md R22, R23, R26 to R30). -/

namespace Sys2Proof.Machine

/-! ## The kinds of command are among the writers -/

theorem writesCrc_of_isEncoder {i : Instr} (h : i.isEncoder = true) : i.writesCrc = true := by
  cases i <;> simp_all [Instr.isEncoder, Instr.writesCrc]

theorem writesCrc_of_appendsPayload {i : Instr} (h : i.appendsPayload = true) : i.writesCrc = true := by
  cases i <;> simp_all [Instr.appendsPayload, Instr.writesCrc]

theorem writesTx_of_appendsPayload {i : Instr} (h : i.appendsPayload = true) : i.writesTx = true := by
  cases i <;> simp_all [Instr.appendsPayload, Instr.writesTx]

theorem writesDecode_of_isDecode {i : Instr} (h : i.isDecode = true) : i.writesDecode = true := by
  cases i <;> simp_all [Instr.isDecode, Instr.writesDecode]

/-! ## What an effect leaves unchanged -/

namespace CommandEffect

variable {i : Instr} {s u : State}

theorem crc_eq (h : CommandEffect i s u) (hw : i.writesCrc = false) : u.crc = s.crc := by
  cases h with
  | append m hi => simp [writesCrc_of_appendsPayload hi] at hw
  | buildFrame a fc p hi => simp [writesCrc_of_isEncoder hi] at hw
  | _ => simp_all [Instr.writesCrc]

theorem tx_eq (h : CommandEffect i s u) (hw : i.writesTx = false) : u.txbuf = s.txbuf ∧ u.txstate = s.txstate := by
  cases h with
  | append m hi => simp [writesTx_of_appendsPayload hi] at hw
  | buildFrame a fc p hi => simp [writesTx_of_isEncoder hi] at hw
  | _ => simp_all [Instr.writesTx]

theorem rx_eq (h : CommandEffect i s u) (hw : i.writesRx = false) : u.rxbuf = s.rxbuf ∧ u.rxovf = s.rxovf := by
  cases h with
  | append m => simp [txPushAll_eq]
  | buildFrame a fc p => simp [txPushAll_eq]
  | _ => simp_all [Instr.writesRx]

theorem decode_eq (h : CommandEffect i s u) (hw : i.writesDecode = false) :
    u.exc = s.exc ∧ u.plen = s.plen ∧ u.rxcrc = s.rxcrc := by
  cases h with
  | append m => simp [txPushAll_eq]
  | buildFrame a fc p => simp [txPushAll_eq]
  | decode ea ef hi => simp [writesDecode_of_isDecode hi] at hw
  | _ => simp_all [Instr.writesDecode]

theorem chcount_eq (h : CommandEffect i s u) (hw : i.writesChcount = false) : u.chcount = s.chcount :=
  (chcount_of_effect h).resolve_right fun h' => by simp [h'.1] at hw

end CommandEffect

/-- Settles O15: recording the result changes RES and SERR only, and these are no element of the lists. -/
theorem elementsHaveOnlyTheirWriters : Obligations.ElementsHaveOnlyTheirWriters := by
  intro i s t h
  obtain ⟨code, u, hu, rfl⟩ := effect_of_exec h
  simp only [record_crc, record_txbuf, record_txstate, record_rxbuf, record_rxovf, record_exc, record_plen,
    record_rxcrc, record_chcount, record_inbox, record_reads]
  exact ⟨hu.crc_eq, hu.tx_eq, hu.rx_eq, hu.decode_eq, hu.chcount_eq, hu.inbox_reads⟩

end Sys2Proof.Machine
end

section
/-! PROOFS. The fields of STATUS, and the values after reset (spec/10_state.md R24, R27, R33, 60_exceptions.md R220). -/

namespace Sys2Proof.Machine

theorem regRead_zero (s : State) : regRead 0x000#10 s = s.status := rfl

/-- STATUS bit by bit: its five fields stand one beside the other and none reaches into another (10_state.md R27). -/
theorem getLsbD_status (s : State) {k : Nat} (hk : k < 16) :
    s.status.getLsbD k =
      if k < 4 then s.res.code.getLsbD k
      else if k = 4 then s.serr
      else if k = 5 then s.rxovf
      else if k < 8 then s.txstate.code.getLsbD (k - 6)
      else s.exc.getLsbD (k - 8) := by
  unfold State.status
  interval_cases k <;> simp [BitVec.getLsbD_of_ge]

theorem status_res (s : State) : s.status.extractLsb' 0 4 = s.res.code := by
  refine BitVec.eq_of_getLsbD_eq fun k hk => ?_
  rw [BitVec.getLsbD_extractLsb', getLsbD_status s (by omega)]
  simp [hk]

theorem status_txstate (s : State) : s.status.extractLsb' 6 2 = s.txstate.code := by
  refine BitVec.eq_of_getLsbD_eq fun k hk => ?_
  rw [BitVec.getLsbD_extractLsb', getLsbD_status s (by omega)]
  interval_cases k <;> simp

theorem status_exc (s : State) : s.status.extractLsb' 8 8 = s.exc := by
  refine BitVec.eq_of_getLsbD_eq fun k hk => ?_
  rw [BitVec.getLsbD_extractLsb', getLsbD_status s (by omega)]
  interval_cases k <;> simp

theorem result_code_le (r : Result) : r.code.toNat ≤ 11 := by cases r <;> decide

theorem txstate_code_ne_three (x : TxState) : x.code ≠ 3#2 := by cases x <;> decide

/-- Settles O12: each field is read off the bits of STATUS, and the codes bound what the fields show. -/
theorem statusFieldsAndCodes : Obligations.StatusFieldsAndCodes := by
  refine ⟨fun s => ?_, by decide, by decide⟩
  rw [regRead_zero, status_res, status_txstate, status_exc]
  exact ⟨rfl, getLsbD_status s (by decide), getLsbD_status s (by decide), rfl, rfl, result_code_le _,
    txstate_code_ne_three _⟩

theorem exec_softReset (s : State) : exec .softReset s = .next (resetBlock s) := rfl

/-- Settles O16: each value is the literal R33 gives, and SOFT_RESET differs from reset in the host's side of the ports
only. -/
theorem resetValues : Obligations.ResetValues := by
  refine ⟨rfl, rfl, rfl, rfl, rfl, rfl, rfl, rfl, rfl, rfl, rfl, by decide, fun s t h => ?_⟩
  rw [exec_softReset] at h
  cases h
  rfl

end Sys2Proof.Machine
end

section
/-! PROOFS. The register read port: its map, and what reads leave unchanged (spec/20_memory.md R52, R53). -/

namespace Sys2Proof.Machine

/-! ## The windows of the address space -/

theorem regRead_control {a : PortAddr} (h : a.toNat < 0x100) (s : State) : regRead a s = controlRead a.toNat s := by
  rw [regRead, if_pos h]

theorem regRead_txbuf {a : PortAddr} (h : 0x100 ≤ a.toNat) (h' : a.toNat < 0x200) (s : State) :
    regRead a s = bufferRead s.txbuf (a.toNat - 0x100) := by
  rw [regRead, if_neg (Nat.not_lt.2 h), if_pos h']

theorem regRead_rxbuf {a : PortAddr} (h : 0x200 ≤ a.toNat) (h' : a.toNat < 0x300) (s : State) :
    regRead a s = bufferRead s.rxbuf (a.toNat - 0x200) := by
  rw [regRead, if_neg (by omega), if_neg (Nat.not_lt.2 h), if_pos h']

theorem regRead_above {a : PortAddr} (h : 0x300 ≤ a.toNat) (s : State) : regRead a s = 0x0000#16 := by
  rw [regRead, if_neg (by omega), if_neg (by omega), if_neg (Nat.not_lt.2 h)]

theorem controlRead_reserved {n : Nat} (h : 0x007 ≤ n) (s : State) : controlRead n s = 0x0000#16 := by
  unfold controlRead
  split
  case h_8 => rfl
  all_goals omega

theorem regRead_reserved {a : PortAddr} (h : 0x007 ≤ a.toNat) (h' : a.toNat ≤ 0x0FF) (s : State) :
    regRead a s = 0x0000#16 := by
  rw [regRead_control (by omega), controlRead_reserved h]

theorem bufferRead_eq (buf : List Byte) (i : Nat) :
    bufferRead buf i = if h : i < buf.length then (buf[i]).setWidth 16 else 0x0000#16 := by
  unfold bufferRead
  split_ifs with h
  · rw [List.getElem?_eq_getElem h]
  · rw [List.getElem?_eq_none (Nat.not_lt.1 h)]

theorem bufferRead_of_length_le {buf : List Byte} {i : Nat} (h : buf.length ≤ i) : bufferRead buf i = 0x0000#16 := by
  rw [bufferRead_eq, dif_neg (Nat.not_lt.2 h)]

theorem toNat_portAddr_of_lt {n : Nat} (h : n < 0x400) : (BitVec.ofNat 10 n).toNat = n := by
  rw [BitVec.toNat_ofNat, Nat.mod_eq_of_lt h]

theorem toNat_word_of_le {n : Nat} (h : n ≤ 256) : (BitVec.ofNat 16 n).toNat = n := by
  rw [BitVec.toNat_ofNat, Nat.mod_eq_of_lt (by omega)]

theorem regRead_txbuf_at {i : Nat} (h : i ≤ 255) (s : State) :
    regRead (BitVec.ofNat 10 (0x100 + i)) s = bufferRead s.txbuf i := by
  have ha : (BitVec.ofNat 10 (0x100 + i)).toNat = 0x100 + i := toNat_portAddr_of_lt (by omega)
  rw [regRead_txbuf (by omega) (by omega), ha, Nat.add_sub_cancel_left]

theorem regRead_rxbuf_at {i : Nat} (h : i ≤ 255) (s : State) :
    regRead (BitVec.ofNat 10 (0x200 + i)) s = bufferRead s.rxbuf i := by
  have ha : (BitVec.ofNat 10 (0x200 + i)).toNat = 0x200 + i := toNat_portAddr_of_lt (by omega)
  rw [regRead_rxbuf (by omega) (by omega), ha, Nat.add_sub_cancel_left]

/-- Settles O10: the named registers are read as they stand, and every other address lies in one of the windows. A
length of at most 256 does not wrap in 16 bits. -/
theorem readPortMap : Obligations.ReadPortMap := by
  intro s
  refine ⟨rfl, rfl, toNat_word_of_le, toNat_word_of_le, rfl, rfl, rfl, fun a h h' => regRead_reserved h h' s,
    fun i h => ?_, fun i h => ?_, fun a h => regRead_above h s⟩
  · rw [regRead_txbuf_at h, bufferRead_eq]
  · rw [regRead_rxbuf_at h, bufferRead_eq]

/-! ## Reads one after the other -/

/-- No answer depends on the inputs still to come or on the answers before it. -/
theorem regRead_ports (a : PortAddr) (s : State) (es : List HostEvent) (rs : List PortRead) :
    regRead a { s with inbox := es, reads := rs } = regRead a s := rfl

theorem run_reads (as : List PortAddr) (rest : List HostEvent) {s : State} (h : s.inbox = as.map .read ++ rest) :
    Host.Core.run core as.length s =
      .next { s with inbox := rest, reads := (as.map fun a => ⟨a, regRead a s⟩).reverse ++ s.reads } := by
  induction as generalizing s with
  | nil =>
    cases h
    rfl
  | cons a as ih =>
    rw [List.length_cons, run_succ_of_step (step_of_read h), ih rfl]
    simp only [answerRead, regRead_ports, List.map_cons, List.reverse_cons, List.append_assoc, List.singleton_append]

/-- Settles O9: the run by induction on the reads, the values that are 0 from the windows. -/
theorem readsChangeNothingAndNeverFault : Obligations.ReadsChangeNothingAndNeverFault := by
  refine ⟨fun s as rest h => run_reads as rest h, fun s a => ⟨?_, ?_, ?_, ?_⟩⟩
  · rintro ⟨h, h'⟩
    exact regRead_reserved h h' s
  · rintro ⟨h, -⟩
    exact regRead_above h s
  · rintro ⟨h, h', hl⟩
    rw [regRead_txbuf h (by omega), bufferRead_of_length_le hl]
  · rintro ⟨h, h', hl⟩
    rw [regRead_rxbuf h (by omega), bufferRead_of_length_le hl]

end Sys2Proof.Machine
end

section
/-! PROOFS. What a command does to the block depends neither on the inputs still to come nor on the answers given, so
reads among the commands make no difference (spec/20_memory.md R53, R61). -/

namespace Sys2Proof.Machine

/-- The state with other values in the host's side of the ports. -/
def State.setPorts (es : List HostEvent) (rs : List PortRead) (s : State) : State := { s with inbox := es, reads := rs }

/-- The outcome with the next state, if there is one, changed by `f`. -/
def onNext (f : State → State) : Host.Outcome State Fault Refusal → Host.Outcome State Fault Refusal
  | .next t => .next (f t)
  | .fault r => .fault r
  | .refused r => .refused r

/-- Two branchings on one condition, compared branch by branch. -/
theorem ite_eq_apply_ite {α β : Type} {f : α → β} {c : Prop} [Decidable c] {x y : α} {x' y' : β} (hx : x' = f x)
    (hy : y' = f y) : (if c then x' else y') = f (if c then x else y) := by
  rw [apply_ite f, hx, hy]

section Ports
variable (es : List HostEvent) (rs : List PortRead) (s : State)

/-! ## The shared operations -/

theorem finish_setPorts (code : Result) :
    finish code (s.setPorts es rs) = onNext (·.setPorts es rs) (finish code s) := by
  cases code <;> rfl

theorem runEncoder_setPorts (a : Byte) (okay : Bool) (fc : Byte) (p : List Byte) :
    runEncoder a okay fc p (s.setPorts es rs) = onNext (·.setPorts es rs) (runEncoder a okay fc p s) := by
  rw [runEncoder_eq, runEncoder_eq]
  exact ite_eq_apply_ite rfl (ite_eq_apply_ite rfl rfl)

theorem rxHeader_setPorts (ea ef : Byte) :
    rxHeader ea ef (s.setPorts es rs) = (rxHeader ea ef s).map id (·.setPorts es rs) :=
  ite_eq_apply_ite rfl (ite_eq_apply_ite (ite_eq_apply_ite rfl rfl) (ite_eq_apply_ite rfl rfl))

theorem rxBody_setPorts (ea ef : Byte) :
    rxBody ea ef (s.setPorts es rs) = (rxBody ea ef s).map id (·.setPorts es rs) :=
  ite_eq_apply_ite rfl (rxHeader_setPorts es rs { s with rxcrc := _ } ea ef)

theorem rxDecode_setPorts (ea ef : Byte) :
    rxDecode ea ef (s.setPorts es rs) = (rxDecode ea ef s).map id (·.setPorts es rs) :=
  ite_eq_apply_ite rfl (ite_eq_apply_ite rfl (rxBody_setPorts es rs { s with exc := _, plen := _ } ea ef))

theorem finish_rxDecode_setPorts (ea ef : Byte) (g : Result → Result) :
    finish (g (rxDecode ea ef (s.setPorts es rs)).1) (rxDecode ea ef (s.setPorts es rs)).2 =
      onNext (·.setPorts es rs) (finish (g (rxDecode ea ef s).1) (rxDecode ea ef s).2) := by
  rw [rxDecode_setPorts]
  exact finish_setPorts es rs _ _

/-! ## Every command -/

/-- With other values in the ports a command takes the same branch and leaves the same block, and the ports as they are.
No condition of a command speaks of the ports. -/
theorem exec_setPorts (i : Instr) : exec i (s.setPorts es rs) = onNext (·.setPorts es rs) (exec i s) := by
  cases i with
  | nop | clrErr | softReset | txClear | rxClear => rfl
  | setChcount | crcInit | crcByte | txEnd | rxByte => exact ite_eq_apply_ite rfl rfl
  | txBegin | txByte | txU16 => exact ite_eq_apply_ite rfl (ite_eq_apply_ite rfl rfl)
  | encRc | encWsc | encWmc | encWmr => exact runEncoder_setPorts ..
  | decCheck a fc => exact finish_rxDecode_setPorts es rs s a fc id
  | decEcho => exact ite_eq_apply_ite rfl (finish_rxDecode_setPorts es rs s _ _ (echoResult · s))

theorem takeCommand_setPorts (w : CommandWord) :
    takeCommand w (s.setPorts es rs) = onNext (·.setPorts es rs) (takeCommand w s) := by
  cases hd : decode w with
  | ok i => rw [takeCommand_of_decode hd, takeCommand_of_decode hd, exec_setPorts]
  | error e => rw [takeCommand_of_reject hd, takeCommand_of_reject hd]; exact finish_setPorts es rs s .illegal

end Ports

/-! ## Inputs one after the other -/

/-- A command word or the reset pulse leaves a block that is the same whatever follows it in the inbox and whatever was
answered before it. -/
theorem step_of_not_read {e : HostEvent} (he : e.isRead = false) (s : State) :
    ∃ v : State, ∀ es rs, step (s.setPorts (e :: es) rs) = .next (v.setPorts es rs) := by
  cases e with
  | command w =>
    obtain ⟨i, code, u, -, hu⟩ := takeCommand_cases w s
    refine ⟨record code u, fun es rs => ?_⟩
    have h : takeCommand w (s.setPorts es rs) = .next ((record code u).setPorts es rs) := by
      rw [takeCommand_setPorts, hu]; rfl
    exact (step_of_command rfl).trans h
  | read a => cases he
  | powerOnReset => exact ⟨State.reset, fun es rs => step_of_powerOnReset rfl⟩

/-- The same inputs with and without their reads, from states that differ in the answers only. -/
theorem run_without_reads (es : List HostEvent) (s : State) (qs rs : List PortRead) :
    ∃ (v : State) (qs' : List PortRead),
      Host.Core.run core es.length (s.setPorts es qs) = .next (v.setPorts [] qs') ∧
      Host.Core.run core (es.filter fun e => !e.isRead).length (s.setPorts (es.filter fun e => !e.isRead) rs) =
        .next (v.setPorts [] rs) := by
  induction es generalizing s qs with
  | nil => exact ⟨s, qs, rfl, rfl⟩
  | cons e es ih =>
    cases he : e.isRead with
    | true =>
      obtain ⟨a, rfl⟩ : ∃ a, e = .read a := by
        cases e with
        | read a => exact ⟨a, rfl⟩
        | command | powerOnReset => cases he
      have hstep : step (s.setPorts (.read a :: es) qs) = .next (s.setPorts es (⟨a, regRead a s⟩ :: qs)) :=
        step_of_read rfl
      rw [List.length_cons, run_succ_of_step hstep, List.filter_cons_of_neg (by simp [he])]
      exact ih s _
    | false =>
      obtain ⟨v, hstep⟩ := step_of_not_read he s
      rw [List.length_cons, run_succ_of_step (hstep es qs), List.filter_cons_of_pos (by simp [he]), List.length_cons,
        run_succ_of_step (hstep _ rs)]
      exact ih v qs

/-- As many steps as `before` has inputs take these and leave the rest. -/
theorem run_takes_inputs (before rest : List HostEvent) {s : State} (h : s.inbox = before ++ rest) :
    ∃ t, Host.Core.run core before.length s = .next t ∧ t.inbox = rest := by
  induction before generalizing s with
  | nil => exact ⟨s, rfl, h⟩
  | cons e before ih =>
    obtain ⟨t, ht, hi⟩ := step_completes s
    rw [List.length_cons, run_succ_of_step ht]
    exact ih (by rw [hi, h]; rfl)

theorem run_add {m : Nat} {s t : State} (h : Host.Core.run core m s = .next t) (n : Nat) :
    Host.Core.run core (m + n) s = Host.Core.run core n t := by
  induction m generalizing s with
  | zero =>
    cases h
    rw [Nat.zero_add]
  | succ m ih =>
    obtain ⟨u, hu, -⟩ := step_completes s
    rw [run_succ_of_step hu] at h
    rw [Nat.succ_add, run_succ_of_step hu, ih h]

/-- Settles O11: both runs leave one block, and a read is answered from the state the inputs before it left. -/
theorem readsDoNotAffectCommands : Obligations.ReadsDoNotAffectCommands := by
  constructor
  · intro s es
    obtain ⟨v, qs, ht, hu⟩ := run_without_reads es s s.reads s.reads
    exact ⟨_, _, ht, hu, rfl, rfl⟩
  · intro s before after a
    obtain ⟨t, ht, hi⟩ := run_takes_inputs before (.read a :: after)
      (s := { s with inbox := before ++ .read a :: after }) rfl
    exact ⟨t, ht, (run_add ht 1).trans (run_succ_of_step (step_of_read hi) 0)⟩

end Sys2Proof.Machine
end

section
/-! PROOFS. A frame ends with the low then the high byte of its body's CRC (spec/20_memory.md R54). -/

namespace Sys2Proof.Machine

theorem exec_txEnd_of_opened {s : State} (h : s.txstate = .opened) :
    exec .txEnd s = .next (record .ok (txSeal s)) := by
  simp only [exec, execTxEnd, h, ne_eq, not_true_eq_false, if_false, finish]

/-- Every encoder runs in the encoders' common order. -/
theorem exec_eq_runEncoder {i : Instr} (h : i.isEncoder = true) (s : State) :
    ∃ a okay fc p, exec i s = runEncoder a okay fc p s := by
  cases i with
  | encRc | encWsc | encWmc | encWmr => exact ⟨_, _, _, _, rfl⟩
  | _ => cases h

/-- An encoder that ends OK leaves one complete frame, which begins with the encoder's address and function code. -/
theorem txbuf_of_runEncoder_ok {a fc : Byte} {okay : Bool} {p : List Byte} {s t : State}
    (h : runEncoder a okay fc p s = .next t) (hok : t.res = .ok) : t.txbuf = frame a fc p := by
  rw [runEncoder_eq] at h
  split_ifs at h
  · cases h; cases hok
  · cases h; cases hok
  · cases h; rfl

theorem embeddedCrc_low_high (m : List Byte) (l h : Byte) :
    embeddedCrc (m ++ [l, h]) = (l.setWidth 16 ||| (h.setWidth 16 <<< 8)) := by
  simp [embeddedCrc, byteAt]

/-- Settles O52: TX_END appends the running CRC, which the invariant says is the body's; an encoder that ends OK leaves
a frame, whose body is the statement's `m`. -/
theorem crcIsLowByteFirst : Obligations.CrcIsLowByteFirst := by
  refine ⟨fun s hs ho => ?_, fun i s t hi h hok => ?_, embeddedCrc_low_high⟩
  · obtain ⟨-, hopen, -, -⟩ := hs
    obtain ⟨-, -, hcrc⟩ := hopen ho
    refine ⟨_, exec_txEnd_of_opened ho, ?_⟩
    rw [record_txbuf, txSeal_txbuf, hcrc, crcBytes]
  · obtain ⟨a, okay, fc, p, he⟩ := exec_eq_runEncoder hi s
    exact ⟨a :: fc :: p, txbuf_of_runEncoder_ok (he.symm.trans h) hok⟩

end Sys2Proof.Machine
end

section
/-! PROOFS. Decoding and encoding are inverse, and the words that decode are the well-formed ones (spec/30_encoding.md
R71 to R74, R77). -/

namespace Sys2Proof

/-! ## The row of a command -/

theorem ctorIdx_lt (i : Instr) : i.ctorIdx < opcodeRows.length := by
  cases i <;> exact Nat.le_of_ble_eq_true rfl

/-- The row of the opcode map that gives the command: the constructors of `Instr` stand in the order of the map. -/
def Instr.row (i : Instr) : OpcodeRow := opcodeRows[i.ctorIdx]'(ctorIdx_lt i)

theorem row_mem (i : Instr) : i.row ∈ opcodeRows := List.getElem_mem _

/-- A row builds no command but its own. -/
theorem row_build {r : OpcodeRow} (hr : r ∈ opcodeRows) (w : CommandWord) : (r.build w).row = r := by
  simp only [opcodeRows, controlRows, crcRows, frameTxRows, encoderRows, frameRxRows, List.cons_append, List.nil_append,
    List.mem_cons, List.not_mem_nil, or_false] at hr
  rcases hr with rfl | rfl | rfl | rfl | rfl | rfl | rfl | rfl | rfl | rfl | rfl | rfl | rfl | rfl | rfl | rfl | rfl |
    rfl | rfl <;> rfl

theorem fieldOp_encode (i : Instr) : fieldOp (encode i) = fieldOp i.row.pattern := by
  cases i <;>
  · change fieldOp (assemble ..) = fieldOp (OpcodeRow.mk _ _ _).pattern
    exact fieldOp_assemble ..

/-- The row reads back every operand the encoding wrote. -/
theorem build_encode (i : Instr) : i.row.build (encode i) = i := by
  cases i with
  | nop | clrErr | softReset | crcInit | txEnd | txClear | rxClear | decEcho => rfl
  | setChcount b => exact congrArg Instr.setChcount (fieldB_assemble ..)
  | crcByte a => exact congrArg Instr.crcByte (fieldA_assemble ..)
  | txBegin a fc => exact congrArg₂ Instr.txBegin (fieldA_assemble ..) (shortB_assemble ..)
  | txByte a => exact congrArg Instr.txByte (fieldA_assemble ..)
  | txU16 b => exact congrArg Instr.txU16 (fieldB_assemble ..)
  | encRc a b c =>
    change Instr.encRc (fieldA (assemble ..)) (fieldB (assemble ..)) (fieldC (assemble ..)) = _
    simp
  | encWsc a b on =>
    change Instr.encWsc (fieldA (assemble ..)) (fieldB (assemble ..)) (bitC (assemble ..)) = _
    simp
  | encWmc a b c on =>
    change Instr.encWmc (fieldA (assemble ..)) (fieldB (assemble ..)) (fieldC (assemble ..)) (bitD (assemble ..)) = _
    simp
  | encWmr a b c =>
    change Instr.encWmr (fieldA (assemble ..)) (fieldB (assemble ..)) (fieldC (assemble ..)) = _
    simp
  | rxByte a => exact congrArg Instr.rxByte (fieldA_assemble ..)
  | decCheck a fc => exact congrArg₂ Instr.decCheck (fieldA_assemble ..) (shortB_assemble ..)

/-! ## Matching a row -/

/-- A mask that covers the opcode, and a pattern with no operand bits, compare the word field by field. -/
theorem masked_eq_iff {w : CommandWord} {op : BitVec 8} {ma : Byte} {mb mc md : Word} :
    w &&& assemble 0xFF#8 ma mb mc md = assemble op 0#8 0#16 0#16 0#16 ↔
      fieldOp w = op ∧ fieldA w &&& ma = 0#8 ∧ fieldB w &&& mb = 0#16 ∧ fieldC w &&& mc = 0#16 ∧
        fieldD w &&& md = 0#16 := by
  have hop : fieldOp w &&& 0xFF#8 = fieldOp w := BitVec.and_allOnes
  conv_lhs => rw [← assemble_fields w, assemble_and, assemble_inj, hop]

theorem assemble_eq_of_masked {w : CommandWord} {op : BitVec 8} {a ma : Byte} {b c d mb mc md : Word}
    (h : w &&& assemble 0xFF#8 ma mb mc md = assemble op 0#8 0#16 0#16 0#16)
    (ha : fieldA w &&& ma = 0#8 → a = fieldA w) (hb : fieldB w &&& mb = 0#16 → b = fieldB w)
    (hc : fieldC w &&& mc = 0#16 → c = fieldC w) (hd : fieldD w &&& md = 0#16 → d = fieldD w) :
    assemble op a b c d = w := by
  obtain ⟨hop, ha', hb', hc', hd'⟩ := masked_eq_iff.1 h
  rw [← hop, ha ha', hb hb', hc hc', hd hd', assemble_fields]

/-- An unused field is zero. -/
theorem zero_of_masked {n : Nat} {x : BitVec n} (h : x &&& BitVec.allOnes n = 0#n) : 0#n = x := by
  rw [← h, BitVec.and_allOnes]

/-- A field whose bits from `k` on are unused is its low `k` bits. -/
theorem low_of_masked {k : Nat} {x mask : Word} (hm : ∀ i < 16, k ≤ i → mask.getLsbD i = true)
    (h : x &&& mask = 0#16) : (x.extractLsb' 0 k).setWidth 16 = x := by
  refine BitVec.eq_of_getLsbD_eq fun i hi => ?_
  simp only [BitVec.getLsbD_setWidth, BitVec.getLsbD_extractLsb', hi, decide_true, Bool.true_and, Nat.zero_add]
  by_cases hk : i < k
  · rw [decide_eq_true hk, Bool.true_and]
  · have hbit : (x &&& mask).getLsbD i = false := by rw [h, BitVec.getLsbD_zero]
    rw [BitVec.getLsbD_and, hm i hi (Nat.not_lt.1 hk), Bool.and_true] at hbit
    rw [hbit, Bool.and_false]

theorem shortField_of_masked {b : Word} (h : b &&& 0xFF00#16 = 0#16) : shortField (b.extractLsb' 0 8) = b :=
  low_of_masked (by decide) h

theorem bitField_of_masked {c : Word} (h : c &&& 0xFFFE#16 = 0#16) : bitField (c.getLsbD 0) = c := by
  have hbit : BitVec.ofBool (c.getLsbD 0) = c.extractLsb' 0 1 :=
    BitVec.eq_of_getLsbD_eq fun i hi => by simp [Nat.lt_one_iff.1 hi]
  rw [bitField, hbit]
  exact low_of_masked (by decide) h

/-- The encoding writes back every bit the row read, and the bits the row did not read are zero. -/
theorem encode_build (i : Instr) {w : CommandWord} (h : i.row.accepts w = true) : encode (i.row.build w) = w := by
  have e : w &&& i.row.mask = i.row.pattern := by simpa [OpcodeRow.accepts] using h
  cases i with
  | nop | clrErr | softReset | crcInit | txEnd | txClear | rxClear | decEcho =>
    exact assemble_eq_of_masked (ma := 0xFF#8) (mb := 0xFFFF#16) (mc := 0xFFFF#16) (md := 0xFFFF#16) e
      zero_of_masked zero_of_masked zero_of_masked zero_of_masked
  | setChcount | txU16 =>
    exact assemble_eq_of_masked (ma := 0xFF#8) (mb := 0#16) (mc := 0xFFFF#16) (md := 0xFFFF#16) e
      zero_of_masked (fun _ => rfl) zero_of_masked zero_of_masked
  | crcByte | txByte | rxByte =>
    exact assemble_eq_of_masked (ma := 0#8) (mb := 0xFFFF#16) (mc := 0xFFFF#16) (md := 0xFFFF#16) e
      (fun _ => rfl) zero_of_masked zero_of_masked zero_of_masked
  | txBegin | decCheck =>
    exact assemble_eq_of_masked (ma := 0#8) (mb := 0xFF00#16) (mc := 0xFFFF#16) (md := 0xFFFF#16) e
      (fun _ => rfl) shortField_of_masked zero_of_masked zero_of_masked
  | encRc | encWmr =>
    exact assemble_eq_of_masked (ma := 0#8) (mb := 0#16) (mc := 0#16) (md := 0xFFFF#16) e
      (fun _ => rfl) (fun _ => rfl) (fun _ => rfl) zero_of_masked
  | encWsc =>
    exact assemble_eq_of_masked (ma := 0#8) (mb := 0#16) (mc := 0xFFFE#16) (md := 0xFFFF#16) e
      (fun _ => rfl) (fun _ => rfl) bitField_of_masked zero_of_masked
  | encWmc =>
    exact assemble_eq_of_masked (ma := 0#8) (mb := 0#16) (mc := 0#16) (md := 0xFFFE#16) e
      (fun _ => rfl) (fun _ => rfl) (fun _ => rfl) bitField_of_masked

/-! ## Well-formed words -/

/-- The operand bits w[55:0]. -/
def operandBits (w : CommandWord) : BitVec 56 := w.extractLsb' 0 56

theorem eq_iff_fieldOp_operandBits (v w : CommandWord) :
    v = w ↔ fieldOp v = fieldOp w ∧ operandBits v = operandBits w := by
  refine ⟨fun h => h ▸ ⟨rfl, rfl⟩, fun ⟨hop, hbits⟩ => BitVec.eq_of_getLsbD_eq fun i hi => ?_⟩
  by_cases h : i < 56
  · simpa [operandBits, h] using congrArg (·.getLsbD i) hbits
  · have hi' : i - 56 < 8 := by omega
    simpa [fieldOp, hi', Nat.add_sub_cancel' (Nat.not_lt.1 h)] using congrArg (·.getLsbD (i - 56)) hop

theorem wordWellFormed_iff (w : CommandWord) :
    wordWellFormed w = true ↔ ∃ m, mustBeZero (fieldOp w) = some m ∧ operandBits w &&& m = 0#56 := by
  rw [wordWellFormed, opcodeKnown, unusedBitsClear, ← fieldOp, ← operandBits]
  cases mustBeZero (fieldOp w) <;> simp

/-- The rows' masks are the must-be-zero bits of R72's patterns. -/
theorem rows_mustBeZero : ∀ r ∈ opcodeRows,
    mustBeZero (fieldOp r.pattern) = some (operandBits r.mask) ∧ operandBits r.pattern = 0#56 := by
  simp only [opcodeRows, controlRows, crcRows, frameTxRows, encoderRows, frameRxRows, List.cons_append, List.nil_append]
  decide

/-- Every opcode that has must-be-zero bits has a row. -/
theorem exists_row_of_mustBeZero {op : BitVec 8} {m : BitVec 56} (h : mustBeZero op = some m) :
    ∃ r ∈ opcodeRows, fieldOp r.pattern = op := by
  have key : ∃ r ∈ opcodeRows, (fieldOp r.pattern).toNat = op.toNat := by
    unfold mustBeZero at h
    split at h
    case h_20 => cases h
    all_goals
      rename_i e
      rw [e]
      decide
  obtain ⟨r, hr, e⟩ := key
  exact ⟨r, hr, BitVec.eq_of_toNat_eq e⟩

/-- A row accepts the words with its opcode whose must-be-zero bits are clear. -/
theorem accepts_iff {r : OpcodeRow} (hr : r ∈ opcodeRows) (w : CommandWord) :
    r.accepts w = true ↔ fieldOp w = fieldOp r.pattern ∧ operandBits w &&& operandBits r.mask = 0#56 := by
  have hop : fieldOp (w &&& r.mask) = fieldOp w := by
    rw [fieldOp_and, rows_opcodes_distinct.2 r hr]
    exact BitVec.and_allOnes
  rw [OpcodeRow.accepts, beq_iff_eq, eq_iff_fieldOp_operandBits, hop, (rows_mustBeZero r hr).2, operandBits,
    BitVec.extractLsb'_and, ← operandBits, ← operandBits]

/-- The check written from the bit patterns and the decoder's rows agree on every word. -/
theorem wordWellFormed_iff_accepts (w : CommandWord) :
    wordWellFormed w = true ↔ ∃ r ∈ opcodeRows, r.accepts w = true := by
  rw [wordWellFormed_iff]
  constructor
  · rintro ⟨m, hm, hz⟩
    obtain ⟨r, hr, hop⟩ := exists_row_of_mustBeZero hm
    have hmask : m = operandBits r.mask := by
      rw [← hop, (rows_mustBeZero r hr).1] at hm
      exact (Option.some.inj hm).symm
    exact ⟨r, hr, (accepts_iff hr w).2 ⟨hop.symm, hmask ▸ hz⟩⟩
  · rintro ⟨r, hr, h⟩
    obtain ⟨hop, hz⟩ := (accepts_iff hr w).1 h
    exact ⟨operandBits r.mask, hop ▸ (rows_mustBeZero r hr).1, hz⟩

theorem wordWellFormed_encode (i : Instr) : wordWellFormed (encode i) = true := by
  cases i with
  | nop => exact Laws.EncodeWellFormed.nop
  | clrErr => exact Laws.EncodeWellFormed.clrErr
  | setChcount b => exact Laws.EncodeWellFormed.setChcount b
  | softReset => exact Laws.EncodeWellFormed.softReset
  | crcInit => exact Laws.EncodeWellFormed.crcInit
  | crcByte a => exact Laws.EncodeWellFormed.crcByte a
  | txBegin a fc => exact Laws.EncodeWellFormed.txBegin a fc
  | txByte a => exact Laws.EncodeWellFormed.txByte a
  | txU16 b => exact Laws.EncodeWellFormed.txU16 b
  | txEnd => exact Laws.EncodeWellFormed.txEnd
  | txClear => exact Laws.EncodeWellFormed.txClear
  | encRc a b c => exact Laws.EncodeWellFormed.encRc a b c
  | encWsc a b on => exact Laws.EncodeWellFormed.encWsc a b on
  | encWmc a b c on => exact Laws.EncodeWellFormed.encWmc a b c on
  | encWmr a b c => exact Laws.EncodeWellFormed.encWmr a b c
  | rxClear => exact Laws.EncodeWellFormed.rxClear
  | rxByte a => exact Laws.EncodeWellFormed.rxByte a
  | decCheck a fc => exact Laws.EncodeWellFormed.decCheck a fc
  | decEcho => exact Laws.EncodeWellFormed.decEcho

/-- A command's row accepts its word: the opcode is the row's, and the word is well formed. -/
theorem row_accepts_encode (i : Instr) : i.row.accepts (encode i) = true := by
  obtain ⟨m, hm, hz⟩ := (wordWellFormed_iff _).1 (wordWellFormed_encode i)
  rw [fieldOp_encode, (rows_mustBeZero _ (row_mem i)).1] at hm
  exact (accepts_iff (row_mem i) _).2 ⟨fieldOp_encode i, Option.some.inj hm ▸ hz⟩

/-- Settles O1: the command's own row accepts its word, so it is the one that decodes it, and it reads the operands
back. -/
theorem decodeOfEncodeIsTheCommand : Obligations.DecodeOfEncodeIsTheCommand := fun i => by
  rw [decode_of_accepts (row_mem i) (row_accepts_encode i), build_encode]

/-- Settles O2: the row that decodes the word is the command's own, and the encoding writes back what it read. -/
theorem encodeOfDecodeIsTheWord : Obligations.EncodeOfDecodeIsTheWord := by
  intro w i h
  rcases decode_cases w with ⟨r, hr, ha, hd⟩ | ⟨-, e, hd⟩
  · rw [hd] at h
    cases h
    rw [← row_build hr w] at ha
    simpa only [row_build hr w] using encode_build (r.build w) ha
  · rw [hd] at h
    cases h

/-- Rows with distinct opcodes that all have one opcode are at most one row. -/
theorem length_le_one_of_opcode {rows : List OpcodeRow} {op : BitVec 8}
    (hp : rows.Pairwise fun r r' => fieldOp r.pattern ≠ fieldOp r'.pattern)
    (hop : ∀ r ∈ rows, op = fieldOp r.pattern) : rows.length ≤ 1 := by
  match rows with
  | [] | [_] => simp
  | r :: r' :: _ =>
    exact absurd ((hop r (by simp)).symm.trans (hop r' (by simp))) (List.rel_of_pairwise_cons hp (by simp))

/-- Settles O3: rows that match one word all have its opcode, and no two rows share an opcode. -/
theorem atMostOneRowMatches : Obligations.AtMostOneRowMatches := by
  intro w
  refine ⟨?_, fun r hr h => decode_of_accepts hr (by simpa [OpcodeRow.accepts] using h),
    fun h => decode_of_no_row fun r hr => by simpa [OpcodeRow.accepts] using h r hr⟩
  refine length_le_one_of_opcode (op := fieldOp w) (rows_opcodes_distinct.1.filter _) fun r hr => ?_
  obtain ⟨hr, h⟩ := List.mem_filter.1 hr
  exact fieldOp_of_accepts hr h

/-- Settles O6: each word is the encoding of the command it stands for. -/
theorem specWordsDecode : Obligations.SpecWordsDecode :=
  ⟨decodeOfEncodeIsTheCommand (.encRc 1#8 1#16 8#16), decodeOfEncodeIsTheCommand (.txBegin 1#8 0x10#8),
    decodeOfEncodeIsTheCommand (.decCheck 1#8 1#8), decodeOfEncodeIsTheCommand .txEnd,
    decodeOfEncodeIsTheCommand (.setChcount 8#16), decodeOfEncodeIsTheCommand (.crcByte 0x31#8),
    decodeOfEncodeIsTheCommand (.encWmc 1#8 1#16 16#16 true)⟩

end Sys2Proof
end

section
/-! PROOFS. Commands one after the other: the assembly of a frame, and the pseudo-command ENC_WMR_N (spec/30_encoding.md
R78, 41_frame_tx.md R121 to R126, 42_encoders.md R147). -/

namespace Sys2Proof.Machine

/-! ## Runs of commands -/

theorem execAll_cons {i : Instr} {s t : State} (h : exec i s = .next t) (is : List Instr) :
    execAll (i :: is) s = execAll is t := by
  rw [execAll, h]

theorem execAll_append {is : List Instr} {s t : State} (h : execAll is s = .next t) (js : List Instr) :
    execAll (is ++ js) s = execAll js t := by
  induction is generalizing s with
  | nil => cases h; rfl
  | cons i is ih =>
    obtain ⟨code, u, -, hu⟩ := completes_exec i s
    rw [execAll_cons hu] at h
    rw [List.cons_append, execAll_cons hu, ih h]

/-- Recording OK again changes nothing. -/
theorem record_ok_of_res_ok {s : State} (h : s.res = .ok) : record .ok s = s := by
  rw [record_ok, ← h]

/-! ## The assembly commands -/

/-- Everything TX_BEGIN can do (41_frame_tx.md R121). -/
theorem exec_txBegin_eq (a fc : Byte) (s : State) :
    exec (.txBegin a fc) s =
      if addrBad a then .next { s with txbuf := [], txstate := .idle, res := .config, serr := true }
      else if requestFcBad fc then .next { s with txbuf := [], txstate := .idle, res := .range, serr := true }
      else .next { s with txbuf := [a, fc], txstate := .opened, crc := crc16 [a, fc], res := .ok } := rfl

/-- A command that appends payload appends it to an open frame that has room for it (41_frame_tx.md R122, R123). -/
theorem exec_of_appendsPayload {i : Instr} {s : State} (hi : i.appendsPayload = true) (ho : s.txstate = .opened)
    (hl : s.txbuf.length + i.payload.length ≤ 254) : exec i s = .next (record .ok (txPushAll i.payload s)) := by
  cases i with
  | txByte | txU16 => exact (if_neg (not_not_intro ho)).trans (if_neg (Nat.not_lt.2 hl))
  | _ => cases hi

theorem execAll_of_appendsPayload {is : List Instr} {s : State} (his : ∀ i ∈ is, i.appendsPayload = true)
    (ho : s.txstate = .opened) (hr : s.res = .ok) (hl : s.txbuf.length + (is.flatMap Instr.payload).length ≤ 254) :
    execAll is s = .next (txPushAll (is.flatMap Instr.payload) s) := by
  induction is generalizing s with
  | nil => rfl
  | cons i is ih =>
    obtain ⟨hi, his⟩ := List.forall_mem_cons.1 his
    rw [List.flatMap_cons, List.length_append] at hl
    have hexec := exec_of_appendsPayload hi ho (by omega)
    rw [record_ok_of_res_ok (by rw [txPushAll_eq]; exact hr)] at hexec
    rw [execAll_cons hexec, ih his (by rw [txPushAll_eq]; exact ho) (by rw [txPushAll_eq]; exact hr)
      (by simp only [txPushAll_eq, List.length_append]; omega)]
    simp only [txPushAll, List.flatMap_cons, List.foldl_append]

/-- An unbroken assembly with a legal header and a payload that fits leaves the frame and changes nothing else. -/
theorem execAll_assembly {a fc : Byte} (ha : addrBad a = false) (hf : requestFcBad fc = false) {is : List Instr}
    (his : ∀ i ∈ is, i.appendsPayload = true) (hl : (is.flatMap Instr.payload).length ≤ 252) (s : State) :
    execAll (.txBegin a fc :: is ++ [.txEnd]) s =
      .next { s with txbuf := frame a fc (is.flatMap Instr.payload), crc := crc16 (a :: fc :: is.flatMap Instr.payload),
                     txstate := .sealed, res := .ok } := by
  have hbegin := exec_txBegin_eq a fc s
  rw [ha, hf, if_neg Bool.false_ne_true, if_neg Bool.false_ne_true] at hbegin
  have hbody := execAll_of_appendsPayload his (s := { s with
    txbuf := [a, fc], txstate := .opened, crc := crc16 [a, fc], res := .ok }) rfl rfl
    (by simp only [List.length_cons, List.length_nil]; omega)
  rw [List.cons_append, execAll_cons hbegin, execAll_append hbody,
    execAll_cons (exec_txEnd_of_opened (by rw [txPushAll_eq])), txPushAll_eq]
  rfl

/-! ## ENC_WMR_N -/

theorem addrBad_eq_false {a : Byte} (h : a.toNat ≤ 247) : addrBad a = false :=
  decide_eq_false (Nat.not_lt.2 h)

/-- The commands of ENC_WMR_N between TX_BEGIN and TX_END. -/
def encWmrNBody (start : Word) (vs : List Word) : List Instr :=
  [.txU16 start, .txU16 (BitVec.ofNat 16 vs.length), .txByte (BitVec.ofNat 8 (2 * vs.length))] ++ vs.map .txU16

theorem encWmrN_eq (a : Byte) (start : Word) (vs : List Word) :
    encWmrN a start vs = .txBegin a Config.fcWmr :: encWmrNBody start vs ++ [.txEnd] := rfl

theorem appendsPayload_of_mem_encWmrNBody {start : Word} {vs : List Word} :
    ∀ i ∈ encWmrNBody start vs, i.appendsPayload = true := by
  simp [encWmrNBody, Instr.appendsPayload]

/-- A number below 256 stands in the low byte of a word. -/
theorem ofNat_word_of_lt {n : Nat} (h : n < 256) : BitVec.ofNat 16 n = (0x00#8 ++ BitVec.ofNat 8 n : Word) := by
  apply BitVec.eq_of_toNat_eq
  rw [BitVec.toNat_append, BitVec.toNat_ofNat, BitVec.toNat_ofNat, BitVec.toNat_ofNat, Nat.zero_mod, Nat.zero_shiftLeft,
    Nat.zero_or]
  omega

theorem payload_encWmrNBody {start : Word} {vs : List Word} (h : vs.length < 256) :
    (encWmrNBody start vs).flatMap Instr.payload =
      [hi8 start, lo8 start, 0x00#8, BitVec.ofNat 8 vs.length, BitVec.ofNat 8 (2 * vs.length)] ++
        vs.flatMap fun v => [hi8 v, lo8 v] := by
  simp [encWmrNBody, Instr.payload, ofNat_word_of_lt h, List.flatMap_map]

theorem execAll_encWmrN {a : Byte} {start : Word} {vs : List Word} (ha : a.toNat ≤ 247) (hn : vs.length ≤ 123)
    (s : State) :
    execAll (encWmrN a start vs) s =
      .next { s with
        txbuf := frame a Config.fcWmr ((encWmrNBody start vs).flatMap Instr.payload),
        crc := crc16 (a :: Config.fcWmr :: (encWmrNBody start vs).flatMap Instr.payload),
        txstate := .sealed, res := .ok } := by
  refine execAll_assembly (addrBad_eq_false ha) rfl appendsPayload_of_mem_encWmrNBody ?_ s
  have hvalues : (vs.flatMap fun v => [hi8 v, lo8 v]).length = vs.length * 2 := by simp [List.length_flatMap]
  rw [payload_encWmrNBody (by omega), List.length_append, hvalues]
  simp only [List.length_cons, List.length_nil]
  omega

/-- Settles O38: the commands are an assembly whose payload, of at most 5 + 2 * 123 bytes, fits. For one value it is the
payload of ENC_WMR. -/
theorem encWmrNBuildsTheRegisterFrame : Obligations.EncWmrNBuildsTheRegisterFrame := by
  refine ⟨fun a start vs s ha _ hn => ?_, fun a start v s ha => ?_⟩
  · rw [execAll_encWmrN ha hn, payload_encWmrNBody (by omega)]
    rfl
  · rw [execAll_encWmrN ha (by simp), payload_encWmrNBody (by simp)]
    change _ = runEncoder ..
    rw [runEncoder_eq, addrBad_eq_false ha]
    rfl

end Sys2Proof.Machine
end

section
/-! PROOFS. The pseudo-command RX_FRAME (spec/30_encoding.md R78, 43_frame_rx.md R171, R172). -/

namespace Sys2Proof.Machine

theorem exec_rxByte_of_room {s : State} (h : s.rxbuf.length ≠ 256) (a : Byte) :
    exec (.rxByte a) s = .next { s with rxbuf := s.rxbuf ++ [a], res := .ok } :=
  if_neg h

theorem exec_rxByte_of_full {s : State} (h : s.rxbuf.length = 256) (a : Byte) :
    exec (.rxByte a) s = .next { s with rxovf := true, res := .overflow, serr := true } :=
  if_pos h

theorem execAll_rxBytes {m : List Byte} {s : State} (hr : s.res = .ok) (hl : s.rxbuf.length + m.length ≤ 256) :
    execAll (m.map .rxByte) s = .next { s with rxbuf := s.rxbuf ++ m } := by
  induction m generalizing s with
  | nil => rw [List.append_nil]; rfl
  | cons a m ih =>
    rw [List.length_cons] at hl
    rw [List.map_cons, execAll_cons (exec_rxByte_of_room (by omega) a),
      ih rfl (by simp only [List.length_append, List.length_singleton]; omega), ← hr, List.append_assoc,
      List.singleton_append]

theorem exec_rxClear_eq (s : State) : exec .rxClear s = .next { s with rxbuf := [], rxovf := false, res := .ok } := rfl

theorem execAll_rxFrame {m : List Byte} (hl : m.length ≤ 256) (s : State) :
    execAll (rxFrame m) s = .next { s with rxbuf := m, rxovf := false, res := .ok } := by
  rw [rxFrame, execAll_cons (exec_rxClear_eq s), execAll_rxBytes rfl (by simpa using hl), List.nil_append]

/-- Settles O48: the bytes that fit, and then the one that meets a full buffer. -/
theorem rxFrameCapturesTheBytes : Obligations.RxFrameCapturesTheBytes := by
  refine fun m s => ⟨fun hl => execAll_rxFrame hl s, fun b hl => ?_⟩
  have happend : rxFrame (m ++ [b]) = rxFrame m ++ [.rxByte b] := by
    rw [rxFrame, List.map_append]; rfl
  rw [happend, execAll_append (execAll_rxFrame hl.le s)]
  exact execAll_cons (exec_rxByte_of_full hl b) []

end Sys2Proof.Machine
end

section
/-! PROOFS. Words that are not commands, and that NOP alone does nothing (spec/30_encoding.md R74, R75). -/

namespace Sys2Proof.Machine

/-! ## ILLEGAL words -/

theorem decode_of_not_wellFormed {w : CommandWord} (h : wordWellFormed w = false) : ∃ e, decode w = .error e :=
  decode_of_no_row fun r hr => by
    by_contra ha
    have hw := (wordWellFormed_iff_accepts w).2 ⟨r, hr, by simpa using ha⟩
    rw [h] at hw
    cases hw

theorem step_of_not_wellFormed {s : State} {w : CommandWord} {rest : List HostEvent} (hi : s.inbox = .command w :: rest)
    (hw : wordWellFormed w = false) : step s = .next { s with inbox := rest, res := .illegal, serr := true } := by
  obtain ⟨e, hd⟩ := decode_of_not_wellFormed hw
  rw [step_of_command hi, takeCommand_of_reject hd, record_of_ne_ok (by decide)]

/-- Settles O4: a word is well formed exactly when a row accepts it. -/
theorem illegalWordChangesOnlyResAndSerr : Obligations.IllegalWordChangesOnlyResAndSerr := by
  refine ⟨fun s w rest hi hw => step_of_not_wellFormed hi hw, fun w hw => ?_⟩
  obtain ⟨r, hr, ha⟩ := (wordWellFormed_iff_accepts w).1 hw
  exact ⟨r.build w, decode_of_accepts hr ha⟩

/-- The opcodes R75 reserves are outside the map. -/
theorem mustBeZero_reserved {op : BitVec 8}
    (h : 0x04 ≤ op.toNat ∧ op.toNat ≤ 0x0F ∨ 0x12 ≤ op.toNat ∧ op.toNat ≤ 0x1F ∨
      0x25 ≤ op.toNat ∧ op.toNat ≤ 0x2F ∨ 0x34 ≤ op.toNat ∧ op.toNat ≤ 0x3F ∨ 0x44 ≤ op.toNat) :
    mustBeZero op = none := by
  unfold mustBeZero
  split
  case h_20 => rfl
  all_goals omega

/-! ## Commands that do something -/

/-- A state in which every command but NOP has something to do or to refuse: a frame is open and still empty, SERR and
RXOVF are set, and CHCOUNT is 0. -/
def busyState : State := { State.reset with txstate := .opened, rxovf := true, serr := true, chcount := 0#16 }

theorem runEncoder_ne_opened {a fc : Byte} {okay : Bool} {p : List Byte} {s t : State}
    (h : runEncoder a okay fc p s = .next t) : t.txstate ≠ .opened := by
  rw [runEncoder_eq] at h
  split_ifs at h <;> cases h <;> exact TxState.noConfusion

/-- In the busy state NOP alone changes nothing but RES and ends OK. -/
theorem eq_nop_of_exec_busyState {i : Instr} (h : exec i busyState = .next { busyState with res := .ok }) :
    i = .nop := by
  cases i with
  | nop => rfl
  | clrErr | softReset | crcInit | crcByte | txEnd | txClear | rxClear | rxByte | decCheck | decEcho => cases h
  | setChcount b =>
    change execSetChcount b busyState = _ at h
    unfold execSetChcount at h
    split_ifs at h with hb
    · cases h
    · cases h
      exact absurd rfl hb
  | txBegin a fc =>
    rw [exec_txBegin_eq] at h
    split_ifs at h
    · cases h
    · cases h
    · exact absurd (congrArg State.txbuf (Host.Outcome.next.inj h)) (List.cons_ne_nil a [fc])
  | txByte | txU16 =>
    rw [exec_of_appendsPayload rfl rfl (by simp [busyState, State.reset, Instr.payload])] at h
    have hbuf := congrArg State.txbuf (Host.Outcome.next.inj h)
    simp [txPushAll_eq, busyState, State.reset, Instr.payload] at hbuf
  | encRc | encWsc | encWmc | encWmr => exact absurd rfl (runEncoder_ne_opened h)

/-- Settles O5: a reserved opcode's word is not well formed. A word that idles in the busy state decodes to NOP, and its
only word is the encoding of NOP. -/
theorem reservedOpcodesIllegalAndOnlyNopIdles : Obligations.ReservedOpcodesIllegalAndOnlyNopIdles := by
  constructor
  · intro s w rest hi hop
    refine step_of_not_wellFormed hi (Bool.eq_false_iff.2 fun hw => ?_)
    obtain ⟨m, hm, -⟩ := (wordWellFormed_iff w).1 hw
    rw [mustBeZero_reserved hop] at hm
    cases hm
  · intro w hidle
    have h := hidle busyState
    cases hd : decode w with
    | error e =>
      rw [takeCommand_of_reject hd] at h
      cases h
    | ok i =>
      rw [takeCommand_of_decode hd] at h
      have hi := eq_nop_of_exec_busyState h
      rw [← encodeOfDecodeIsTheWord w i hd, hi]
      rfl

end Sys2Proof.Machine
end

section
/-! PROOFS. The CRC function: its bit-serial and its table-driven form, and the residue of a sequence that ends with its
CRC (spec/40_crc.md R100 to R103). -/

namespace Sys2Proof.Machine

/-! ## The bit-serial form -/

theorem crcRounds_eq_iterate (n : Nat) (c : Word) : crcRounds n c = crcRound^[n] c := by
  induction n generalizing c with
  | zero => rfl
  | succ n ih => exact ih (crcRound c)

theorem crcRounds_add (m n : Nat) (c : Word) : crcRounds (m + n) c = crcRounds m (crcRounds n c) := by
  simp only [crcRounds_eq_iterate, Function.iterate_add_apply]

theorem crcRounds_eq_foldl (n : Nat) (c : Word) : crcRounds n c = (List.range n).foldl (fun x _ => crcRound x) c := by
  rw [List.foldl_const, List.length_range, crcRounds_eq_iterate]

/-- Settles O25: eight rounds are a fold over eight places, and the CRC of a sequence is a fold over its bytes. -/
theorem crcBitSerialForm : Obligations.CrcBitSerialForm :=
  ⟨fun c b => crcRounds_eq_foldl 8 (c ^^^ b.setWidth 16), rfl, fun m b => crc16_append m [b]⟩

/-! ## Rounds on the two bytes of a word -/

theorem pair_and_low_byte (h l : Byte) : (h ++ l : Word) &&& 0x00FF#16 = 0#8 ++ l := by
  have hmask : 0x00FF#16 = 0x00#8 ++ 0xFF#8 := rfl
  rw [hmask, BitVec.and_append, BitVec.and_zero]
  exact congrArg _ BitVec.and_allOnes

theorem setWidth_byte (b : Byte) : b.setWidth 16 = 0#8 ++ b := BitVec.setWidth_eq_append (by decide)

theorem crcStep_eq (c : Word) (b : Byte) : crcStep c b = crcRounds 8 (c ^^^ (0#8 ++ b)) := by
  rw [crcStep, setWidth_byte]

theorem pair_ushiftRight_eight (h l : Byte) : (h ++ l : Word) >>> 8 = 0#8 ++ h := by
  refine BitVec.eq_of_getLsbD_eq fun i _ => ?_
  simp only [BitVec.getLsbD_ushiftRight, getLsbD_pair]
  by_cases hi : i < 8
  · simp [hi]
  · simp [hi, BitVec.getLsbD_of_ge h i (by omega)]

/-- Eight rounds bring a high byte down to the low end, since the bits they shift out are zero. -/
theorem crcRounds_eight_high (h : Byte) : crcRounds 8 (h ++ 0#8) = 0#8 ++ h := by
  rw [crcRounds_of_low_clear 8 _ fun i hi => by rw [getLsbD_pair, if_pos hi, BitVec.getLsbD_zero],
    pair_ushiftRight_eight]

/-- Eight rounds on a word are eight rounds on its low byte, and its high byte brought down. -/
theorem crcRounds_eight (h l : Byte) : crcRounds 8 (h ++ l) = crcRounds 8 (0#8 ++ l) ^^^ (0#8 ++ h) := by
  rw [← crcRounds_eight_high h, ← crcRounds_xor, BitVec.xor_append, BitVec.zero_xor, BitVec.xor_zero]

/-! ## The table-driven form -/

/-- R102's table, as printed, holds the CRC steps from zero. -/
theorem crcTable_eq : crcTable = (List.range 256).map fun i => crcStep 0x0000#16 (BitVec.ofNat 8 i) := by
  decide +kernel

theorem crcTable_getElem? {i : Nat} (h : i ≤ 255) : crcTable[i]? = some (crcStep 0x0000#16 (BitVec.ofNat 8 i)) := by
  rw [crcTable_eq, List.getElem?_map, List.getElem?_range (by omega), Option.map_some]

theorem crcTable_getD (b : Byte) : crcTable.getD b.toNat 0#16 = crcRounds 8 (0#8 ++ b) := by
  rw [List.getD_eq_getElem?_getD, crcTable_getElem? (Nat.le_of_lt_succ b.isLt), BitVec.ofNat_toNat, BitVec.setWidth_eq,
    Option.getD_some, crcStep_eq, BitVec.zero_xor]

theorem crcStep_eq_crcStepTable (c : Word) (b : Byte) : crcStep c b = crcStepTable c b := by
  obtain ⟨h, l, rfl⟩ : ∃ h l : Byte, c = h ++ l := ⟨hi8 c, lo8 c, (hi8_append_lo8 c).symm⟩
  have htoNat : (0#8 ++ (l ^^^ b) : Word).toNat = (l ^^^ b).toNat := by
    rw [← setWidth_byte, BitVec.toNat_setWidth_of_le (by decide)]
  rw [crcStep_eq, crcStepTable, setWidth_byte, BitVec.xor_append, BitVec.xor_zero, pair_and_low_byte, htoNat,
    crcTable_getD, pair_ushiftRight_eight, crcRounds_eight, BitVec.xor_comm]

/-- Settles O26: the rounds on the low byte are the table's entry, and the high byte is shifted down. -/
theorem tableDrivenCrcIsTheBitSerialCrc : Obligations.TableDrivenCrcIsTheBitSerialCrc :=
  ⟨crcStep_eq_crcStepTable, fun _ h => crcTable_getElem? h,
    by rw [crcTable_eq, List.length_map, List.length_range]⟩

/-! ## The residue -/

/-- The two bytes of a word, low byte first, enter the CRC like the word itself before sixteen rounds: the first eight
bring the high byte down to where it enters. -/
theorem crcFeed_crcBytes (c v : Word) : crcFeed c (crcBytes v) = crcRounds 16 (c ^^^ v) := by
  have hv : (0#8 ++ lo8 v : Word) ^^^ (hi8 v ++ 0#8) = v := by
    rw [BitVec.xor_append, BitVec.zero_xor, BitVec.xor_zero, hi8_append_lo8]
  calc crcFeed c (crcBytes v)
    _ = crcRounds 8 (crcRounds 8 (c ^^^ (0#8 ++ lo8 v)) ^^^ (0#8 ++ hi8 v)) := by
      rw [crcBytes, crcFeed_cons, crcFeed_cons, crcFeed_nil, crcStep_eq, crcStep_eq]
    _ = crcRounds 8 (crcRounds 8 (c ^^^ v)) := by
      rw [← crcRounds_eight_high (hi8 v), ← crcRounds_xor, BitVec.xor_assoc, hv]
    _ = crcRounds 16 (c ^^^ v) := (crcRounds_add 8 8 _).symm

/-- A sequence followed by a word has CRC zero exactly when the word is the sequence's CRC (40_crc.md R103). -/
theorem crc16_append_crcBytes_eq_zero_iff (m : List Byte) (v : Word) :
    crc16 (m ++ crcBytes v) = 0#16 ↔ crc16 m = v := by
  rw [crc16_append, crcFeed_crcBytes, ← BitVec.xor_eq_zero_iff (x := crc16 m)]
  exact ⟨crcRounds_eq_zero, fun h => by rw [h, crcRounds_zero]⟩

/-- Settles O27: both halves of R103 are the one equivalence. -/
theorem crcResidue : Obligations.CrcResidue := fun m =>
  ⟨(crc16_append_crcBytes_eq_zero_iff m _).2 rfl,
    fun v hv h => hv ((crc16_append_crcBytes_eq_zero_iff m v).1 h).symm⟩

end Sys2Proof.Machine
end

section
/-! PROOFS. A word with an unused bit set ends ILLEGAL (spec/30_encoding.md R74). -/

namespace Sys2Proof.Machine

/-- A word with a command's opcode is not well formed when it meets the opcode's must-be-zero bits. -/
theorem unusedBitsEndIllegal {op : BitVec 8} {unused : CommandWord} (hm : mustBeZero op = some (operandBits unused))
    (hop : fieldOp unused = 0#8) : UnusedBitsEndIllegal op unused := by
  intro s w rest hi hw hbits
  refine step_of_not_wellFormed hi (Bool.eq_false_iff.2 fun hwf => hbits ?_)
  obtain ⟨m, hm', hz⟩ := (wordWellFormed_iff w).1 hwf
  rw [hw, hm] at hm'
  cases hm'
  refine (eq_iff_fieldOp_operandBits _ _).2 ⟨?_, ?_⟩
  · rw [fieldOp_and, hop, BitVec.and_zero]; rfl
  · rw [operandBits, BitVec.extractLsb'_and]; exact hz

end Sys2Proof.Machine
end

section
/-! PROOFS. The standalone CRC commands, and the pseudo-command CRC_OVER (spec/40_crc.md R104 to R106). -/

namespace Sys2Proof.Machine

theorem exec_crcInit_of_opened {s : State} (h : s.txstate = .opened) :
    exec .crcInit s = .next { s with res := .sequence, serr := true } :=
  if_pos h

theorem exec_crcInit_of_not_opened {s : State} (h : s.txstate ≠ .opened) :
    exec .crcInit s = .next { s with crc := 0xFFFF#16, res := .ok } :=
  if_neg h

/-- Settles O28: the word is the encoding of CRC_INIT, and the two outcomes are the command's two branches. -/
theorem crcInitLoadsInitUnlessOpen : Obligations.CrcInitLoadsInitUnlessOpen :=
  ⟨decodeOfEncodeIsTheCommand .crcInit, unusedBitsEndIllegal rfl rfl,
    fun _ => ⟨exec_crcInit_of_opened, exec_crcInit_of_not_opened⟩⟩

theorem exec_crcByte_of_opened {s : State} (h : s.txstate = .opened) (a : Byte) :
    exec (.crcByte a) s = .next { s with res := .sequence, serr := true } :=
  if_pos h

theorem exec_crcByte_of_not_opened {s : State} (h : s.txstate ≠ .opened) (a : Byte) :
    exec (.crcByte a) s = .next { s with crc := crcStep s.crc a, res := .ok } :=
  if_neg h

/-- A word whose operands beyond A are zero, written with them as one field. -/
theorem assemble_a_only (op : BitVec 8) (a : Byte) : assemble op a 0#16 0#16 0#16 = op ++ a ++ 0#48 := by
  rw [assemble, BitVec.append_assoc, BitVec.append_assoc]
  simp

/-- Settles O29: the word is the encoding of CRC_BYTE A, and the two outcomes are the command's two branches. -/
theorem crcByteFeedsOneByteUnlessOpen : Obligations.CrcByteFeedsOneByteUnlessOpen := by
  refine ⟨fun a => ?_, unusedBitsEndIllegal rfl rfl, fun a _ =>
    ⟨fun h => exec_crcByte_of_opened h a, fun h => exec_crcByte_of_not_opened h a⟩⟩
  rw [← assemble_a_only]
  exact decodeOfEncodeIsTheCommand (.crcByte a)

/-- While no frame is open each CRC_BYTE feeds its byte, whatever the CRC before the first one. -/
theorem execAll_crcBytes {s : State} (hs : s.txstate ≠ .opened) (c : Word) (m : List Byte) :
    execAll (m.map .crcByte) { s with crc := c, res := .ok } = .next { s with crc := crcFeed c m, res := .ok } := by
  induction m generalizing c with
  | nil => rfl
  | cons a m ih =>
    have hexec := exec_crcByte_of_not_opened (s := { s with crc := c, res := .ok }) hs a
    exact (execAll_cons hexec _).trans (ih (crcStep c a))

/-- Settles O30: CRC_INIT loads the value the CRC of a sequence starts from, and the bytes are fed in order. -/
theorem crcOverComputesTheCrc : Obligations.CrcOverComputesTheCrc := fun m _ hs =>
  ⟨(execAll_cons (exec_crcInit_of_not_opened hs) _).trans (execAll_crcBytes hs Config.crcInit m), rfl⟩

end Sys2Proof.Machine
end

section
/-! PROOFS. The request frame assembly commands one by one (spec/41_frame_tx.md R121 to R125). -/

namespace Sys2Proof.Machine

/-! ## Their words -/

/-- A word whose operands beyond B are zero, written with them as one field. -/
theorem assemble_a_b_only (op : BitVec 8) (a : Byte) (b : Word) : assemble op a b 0#16 0#16 = op ++ a ++ b ++ 0#32 := by
  rw [assemble, BitVec.append_assoc]
  simp

/-- A word whose operands are A and a short operand in B. -/
theorem assemble_a_shortField (op : BitVec 8) (a fc : Byte) :
    assemble op a (shortField fc) 0#16 0#16 = op ++ a ++ 0#8 ++ fc ++ 0#32 := by
  have hassoc : op ++ a ++ 0#8 ++ fc = op ++ a ++ (0#8 ++ fc) := BitVec.append_assoc
  rw [assemble_a_b_only, shortField, setWidth_byte, hassoc]

/-! ## The header checks -/

theorem addrBad_eq_true {a : Byte} (h : 247 < a.toNat) : addrBad a = true := decide_eq_true h

theorem requestFcBad_eq_true_iff (fc : Byte) : requestFcBad fc = true ↔ fc = 0x00#8 ∨ fc.getLsbD 7 = true := by
  rw [requestFcBad, Bool.or_eq_true, beq_iff_eq]

theorem requestFcBad_eq_false {fc : Byte} (h0 : 1 ≤ fc.toNat) (h7 : fc.toNat ≤ 0x7F) : requestFcBad fc = false := by
  refine Bool.eq_false_iff.2 fun h => ?_
  obtain rfl | h := (requestFcBad_eq_true_iff fc).1 h
  · exact absurd h0 (by decide)
  · have hmsb : fc.msb = true := h
    rw [BitVec.msb_eq_decide, decide_eq_true_eq] at hmsb
    omega

/-! ## What each command does -/

theorem exec_txBegin_of_legal {a fc : Byte} (ha : addrBad a = false) (hf : requestFcBad fc = false) (s : State) :
    exec (.txBegin a fc) s =
      .next { s with txbuf := [a, fc], txstate := .opened, crc := crc16 [a, fc], res := .ok } := by
  rw [exec_txBegin_eq, ha, hf, if_neg Bool.false_ne_true, if_neg Bool.false_ne_true]

/-- Settles O31: the word is the encoding of TX_BEGIN A, b, and the three outcomes are the command's three branches. -/
theorem txBeginStartsAFrame : Obligations.TxBeginStartsAFrame := by
  refine ⟨fun a fc => ?_, unusedBitsEndIllegal rfl rfl, fun a fc s =>
    ⟨fun ha => ?_, fun ha hf => ?_, fun ha h0 h7 => ?_⟩⟩
  · rw [← assemble_a_shortField]
    exact decodeOfEncodeIsTheCommand (.txBegin a fc)
  · rw [exec_txBegin_eq, if_pos (addrBad_eq_true ha)]
  · rw [exec_txBegin_eq, addrBad_eq_false ha, if_neg Bool.false_ne_true,
      if_pos ((requestFcBad_eq_true_iff fc).2 hf)]
  · refine exec_txBegin_of_legal (addrBad_eq_false ha) (Bool.eq_false_iff.2 fun h => ?_) s
    exact ((requestFcBad_eq_true_iff fc).1 h).elim h0 (ne_true_of_eq_false h7)

section

variable {i : Instr} {s : State} (hi : i.appendsPayload = true)
include hi

theorem exec_of_appendsPayload_not_opened (ho : s.txstate ≠ .opened) :
    exec i s = .next { s with res := .sequence, serr := true } := by
  cases i with
  | txByte | txU16 => exact if_pos ho
  | _ => cases hi

theorem exec_of_appendsPayload_no_room (ho : s.txstate = .opened) (hl : 254 < s.txbuf.length + i.payload.length) :
    exec i s = .next { s with res := .overflow, serr := true } := by
  cases i with
  | txByte | txU16 => exact (if_neg (not_not_intro ho)).trans (if_pos hl)
  | _ => cases hi

end

/-- Settles O32: TX_BYTE appends a payload of one byte. -/
theorem txByteAppendsOneByte : Obligations.TxByteAppendsOneByte := by
  refine ⟨fun a => ?_, unusedBitsEndIllegal rfl rfl, fun a _ =>
    have hi : (Instr.txByte a).appendsPayload = true := rfl
    ⟨exec_of_appendsPayload_not_opened hi, exec_of_appendsPayload_no_room hi, exec_of_appendsPayload hi⟩⟩
  rw [← assemble_a_only]
  exact decodeOfEncodeIsTheCommand (.txByte a)

/-- Settles O33: TX_U16 appends a payload of two bytes, the high one first. -/
theorem txU16AppendsHighByteFirst : Obligations.TxU16AppendsHighByteFirst := by
  refine ⟨fun b => ?_, unusedBitsEndIllegal rfl rfl, fun b _ =>
    have hi : (Instr.txU16 b).appendsPayload = true := rfl
    ⟨exec_of_appendsPayload_not_opened hi, exec_of_appendsPayload_no_room hi, fun ho hl => ?_⟩⟩
  · rw [← assemble_a_b_only]
    exact decodeOfEncodeIsTheCommand (.txU16 b)
  · rw [exec_of_appendsPayload hi ho hl, txPushAll_eq]
    rfl

theorem exec_txEnd_of_not_opened {s : State} (h : s.txstate ≠ .opened) :
    exec .txEnd s = .next { s with res := .sequence, serr := true } :=
  if_pos h

/-- Settles O34: the word is the encoding of TX_END, and the two outcomes are the command's two branches. -/
theorem txEndSealsTheFrame : Obligations.TxEndSealsTheFrame :=
  ⟨decodeOfEncodeIsTheCommand .txEnd, unusedBitsEndIllegal rfl rfl,
    fun _ => ⟨exec_txEnd_of_not_opened, exec_txEnd_of_opened⟩⟩

/-- Settles O35: TX_CLEAR has one outcome in every state. -/
theorem txClearDropsTheFrame : Obligations.TxClearDropsTheFrame :=
  ⟨decodeOfEncodeIsTheCommand .txClear, unusedBitsEndIllegal rfl rfl, fun _ => rfl⟩

end Sys2Proof.Machine
end

section
/-! PROOFS. Request frame assembly: what TX_BEGIN, payload and TX_END build, with other commands between them or not
(spec/41_frame_tx.md R126, R127). -/

namespace Sys2Proof.Machine

/-! ## What appending a payload does to the fields an assembly reads -/

@[simp] theorem txPushAll_txbuf (vs : List Byte) (s : State) : (txPushAll vs s).txbuf = s.txbuf ++ vs := by
  rw [txPushAll_eq]

@[simp] theorem txPushAll_crc (vs : List Byte) (s : State) : (txPushAll vs s).crc = crcFeed s.crc vs := by
  rw [txPushAll_eq]

@[simp] theorem txPushAll_txstate (vs : List Byte) (s : State) : (txPushAll vs s).txstate = s.txstate := by
  rw [txPushAll_eq]

@[simp] theorem txPushAll_res (vs : List Byte) (s : State) : (txPushAll vs s).res = s.res := by
  rw [txPushAll_eq]

theorem txPushAll_append (vs ws : List Byte) (s : State) :
    txPushAll (vs ++ ws) s = txPushAll ws (txPushAll vs s) := List.foldl_append

/-! ## Runs of commands of which each TX command ends OK -/

theorem execTxOk_cons_iff {i : Instr} {is : List Instr} {s u : State} :
    execTxOk (i :: is) s = some u ↔
      ∃ t, exec i s = .next t ∧ (i.isTx = true → t.res = .ok) ∧ execTxOk is t = some u := by
  obtain ⟨code, v, -, ht⟩ := completes_exec i s
  simp only [ht, Host.Outcome.next.injEq, exists_eq_left']
  cases hi : i.isTx with
  | false => simp [execTxOk_cons_other ht hi]
  | true => simp [execTxOk_cons_tx ht hi]

theorem execTxOk_append_iff {is js : List Instr} {s u : State} :
    execTxOk (is ++ js) s = some u ↔ ∃ t, execTxOk is s = some t ∧ execTxOk js t = some u := by
  induction is generalizing s with
  | nil => simp [execTxOk]
  | cons i is ih =>
    simp only [List.cons_append, execTxOk_cons_iff, ih]
    constructor
    · rintro ⟨v, hv, hok, t, hvt, htu⟩
      exact ⟨t, ⟨v, hv, hok, hvt⟩, htu⟩
    · rintro ⟨t, ⟨v, hv, hok, hvt⟩, htu⟩
      exact ⟨v, hv, hok, t, hvt, htu⟩

/-- A run of nothing but TX commands goes on as long as each command ends OK. -/
theorem execAllOk_eq_execTxOk {is : List Instr} (his : ∀ i ∈ is, i.isTx = true) (s : State) :
    execAllOk is s = execTxOk is s := by
  induction is generalizing s with
  | nil => rfl
  | cons i is ih =>
    obtain ⟨hi, his⟩ := List.forall_mem_cons.1 his
    obtain ⟨code, t, -, ht⟩ := completes_exec i s
    rw [execTxOk_cons_tx ht hi, ← ih his, execAllOk, ht]

/-! ## When an assembly command ends OK -/

theorem exec_txBegin_ok_iff {a fc : Byte} {s t : State} :
    exec (.txBegin a fc) s = .next t ∧ t.res = .ok ↔
      (addrBad a = false ∧ requestFcBad fc = false) ∧ t = record .ok (txBegin a fc (txDiscard s)) := by
  constructor
  · rintro ⟨h, hok⟩
    rw [exec_txBegin_eq] at h
    split_ifs at h with ha hf
    · cases h; cases hok
    · cases h; cases hok
    · cases h; exact ⟨⟨Bool.eq_false_iff.2 ha, Bool.eq_false_iff.2 hf⟩, rfl⟩
  · rintro ⟨⟨ha, hf⟩, rfl⟩
    exact ⟨exec_txBegin_of_legal ha hf s, rfl⟩

theorem exec_appendsPayload_ok_iff {i : Instr} (hi : i.appendsPayload = true) {s t : State} :
    exec i s = .next t ∧ t.res = .ok ↔
      s.txstate = .opened ∧ s.txbuf.length + i.payload.length ≤ 254 ∧ t = record .ok (txPushAll i.payload s) := by
  constructor
  · rintro ⟨h, hok⟩
    by_cases ho : s.txstate = .opened
    · by_cases hl : s.txbuf.length + i.payload.length ≤ 254
      · rw [exec_of_appendsPayload hi ho hl] at h
        exact ⟨ho, hl, (Host.Outcome.next.inj h).symm⟩
      · rw [exec_of_appendsPayload_no_room hi ho (Nat.not_le.1 hl)] at h
        cases h; cases hok
    · rw [exec_of_appendsPayload_not_opened hi ho] at h
      cases h; cases hok
  · rintro ⟨ho, hl, rfl⟩
    exact ⟨exec_of_appendsPayload hi ho hl, record_res .ok _⟩

theorem exec_txEnd_ok_iff {s t : State} :
    exec .txEnd s = .next t ∧ t.res = .ok ↔ s.txstate = .opened ∧ t = record .ok (txSeal s) := by
  constructor
  · rintro ⟨h, hok⟩
    by_cases ho : s.txstate = .opened
    · rw [exec_txEnd_of_opened ho] at h
      exact ⟨ho, (Host.Outcome.next.inj h).symm⟩
    · rw [exec_txEnd_of_not_opened ho] at h
      cases h; cases hok
  · rintro ⟨ho, rfl⟩
    exact ⟨exec_txEnd_of_opened ho, rfl⟩

theorem isTx_of_appendsPayload {i : Instr} (h : i.appendsPayload = true) : i.isTx = true := by
  cases i with
  | txByte | txU16 => rfl
  | _ => cases h

/-- An assembly runs through exactly when its header is legal and the commands after TX_BEGIN leave a frame open, which
TX_END then seals. -/
theorem execTxOk_assembly_iff {a fc : Byte} {is : List Instr} {s t : State} :
    execTxOk (.txBegin a fc :: is ++ [.txEnd]) s = some t ↔
      (addrBad a = false ∧ requestFcBad fc = false) ∧
        ∃ v, execTxOk is (record .ok (txBegin a fc (txDiscard s))) = some v ∧ v.txstate = .opened ∧
          t = record .ok (txSeal v) := by
  have hend (v : State) : execTxOk [.txEnd] v = some t ↔ v.txstate = .opened ∧ t = record .ok (txSeal v) := by
    rw [← exec_txEnd_ok_iff, execTxOk_cons_iff]
    simp [execTxOk, Instr.isTx]
  rw [List.cons_append, execTxOk_cons_iff]
  have hTx : (Instr.txBegin a fc).isTx = true := rfl
  simp only [hTx, true_implies, ← and_assoc, exec_txBegin_ok_iff, execTxOk_append_iff, hend]
  simp only [and_assoc, exists_and_left, exists_eq_left]

/-! ## An unbroken assembly -/

/-- Payload commands alone all end OK exactly when the payload fits, and leave it appended. -/
theorem execTxOk_appendsPayload_iff {is : List Instr} (his : ∀ i ∈ is, i.appendsPayload = true) {s u : State}
    (ho : s.txstate = .opened) (hr : s.res = .ok) (hl : s.txbuf.length ≤ 254) :
    execTxOk is s = some u ↔
      s.txbuf.length + (is.flatMap Instr.payload).length ≤ 254 ∧ u = txPushAll (is.flatMap Instr.payload) s := by
  induction is generalizing s with
  | nil => simp [execTxOk, txPushAll, hl, eq_comm]
  | cons i is ih =>
    obtain ⟨hi, his⟩ := List.forall_mem_cons.1 his
    have hnext : record .ok (txPushAll i.payload s) = txPushAll i.payload s := record_ok_of_res_ok (by simp [hr])
    have hrest (hroom : s.txbuf.length + i.payload.length ≤ 254) :=
      ih his (s := txPushAll i.payload s) (by simp [ho]) (by simp [hr]) (by simpa using hroom)
    rw [execTxOk_cons_iff]
    simp only [isTx_of_appendsPayload hi, true_implies, ← and_assoc, exec_appendsPayload_ok_iff hi]
    simp only [and_assoc, exists_and_left, exists_eq_left, hnext, ho, true_and]
    rw [and_congr_right hrest, List.flatMap_cons, txPushAll_append, txPushAll_txbuf, List.length_append,
      List.length_append, ← and_assoc]
    exact and_congr_left' (by omega)

theorem isTx_of_mem_unbroken {a fc : Byte} {is : List Instr} (his : ∀ i ∈ is, i.appendsPayload = true) :
    ∀ i ∈ .txBegin a fc :: is ++ [.txEnd], i.isTx = true := by
  intro i hi
  rw [List.mem_append, List.mem_cons, List.mem_singleton] at hi
  obtain (rfl | hi) | rfl := hi
  · rfl
  · exact isTx_of_appendsPayload (his i hi)
  · rfl

/-- An unbroken assembly runs through exactly when its header is legal and its payload fits, and then leaves the frame and
changes nothing else. -/
theorem execAllOk_unbroken_iff {a fc : Byte} {is : List Instr} (his : ∀ i ∈ is, i.appendsPayload = true) {s t : State} :
    execAllOk (.txBegin a fc :: is ++ [.txEnd]) s = some t ↔
      (addrBad a = false ∧ requestFcBad fc = false) ∧ (is.flatMap Instr.payload).length ≤ 252 ∧
        t = { s with txbuf := frame a fc (is.flatMap Instr.payload), crc := crc16 (a :: fc :: is.flatMap Instr.payload),
                     txstate := .sealed, res := .ok } := by
  have hsealed : record .ok (txSeal (txPushAll (is.flatMap Instr.payload) (record .ok (txBegin a fc (txDiscard s))))) =
      { s with txbuf := frame a fc (is.flatMap Instr.payload), crc := crc16 (a :: fc :: is.flatMap Instr.payload),
               txstate := .sealed, res := .ok } := by
    rw [txPushAll_eq]; rfl
  have hfits : ([a, fc].length + (is.flatMap Instr.payload).length ≤ 254) ↔ (is.flatMap Instr.payload).length ≤ 252 := by
    simp only [List.length_cons, List.length_nil]; omega
  have hbody (v : State) := execTxOk_appendsPayload_iff his (u := v)
    (s := record .ok (txBegin a fc (txDiscard s))) rfl rfl (by simp)
  rw [execAllOk_eq_execTxOk (isTx_of_mem_unbroken his), execTxOk_assembly_iff]
  simp only [hbody, and_assoc, exists_and_left, exists_eq_left, hsealed, txPushAll_txstate, record_txstate,
    txBegin_txstate, record_txbuf, txBegin_txbuf, hfits, true_and]

/-! ## The payload of R126 -/

theorem appendsPayload_command (x : PayloadItem) : x.command.appendsPayload = true := by
  cases x with
  | inl b => rfl
  | inr v => rfl

theorem payload_command (x : PayloadItem) : x.command.payload = x.bytes := by
  cases x with
  | inl b => rfl
  | inr v => rfl

theorem flatMap_payload_commands (items : List PayloadItem) :
    (items.map PayloadItem.command).flatMap Instr.payload = items.flatMap PayloadItem.bytes := by
  rw [List.flatMap_map]
  exact congrArg (items.flatMap ·) (funext payload_command)

/-- Settles O57: the items' commands are payload commands, so the run is an unbroken assembly. -/
theorem unbrokenAssemblyChangesOnlyTheFrame : Obligations.UnbrokenAssemblyChangesOnlyTheFrame := by
  intro a f items s
  have hrun (t : State) := execAllOk_unbroken_iff (a := a) (fc := f) (s := s) (t := t)
    (List.forall_mem_map.2 fun x (_ : x ∈ items) => appendsPayload_command x)
  simp only [flatMap_payload_commands] at hrun
  refine ⟨fun t ht => ?_, fun ha h1 h7 hl => ?_⟩
  · obtain ⟨-, -, hframe⟩ := (hrun t).1 ht
    exact hframe
  · exact Option.isSome_iff_exists.2 ⟨_, (hrun _).2 ⟨⟨addrBad_eq_false ha, requestFcBad_eq_false h1 h7⟩, hl, rfl⟩⟩

theorem length_frame (a fc : Byte) (p : List Byte) : (frame a fc p).length = p.length + 4 := length_withCrc (a :: fc :: p)

/-- Settles O37: TX_FRAME is an unbroken assembly of TX_BYTE commands, and its frame is four bytes longer than the
payload. -/
theorem payloadCapacity : Obligations.PayloadCapacity := by
  intro a f p s ha h1 h7
  have hrun (t : State) := execAllOk_unbroken_iff (a := a) (fc := f) (s := s) (t := t)
    (List.forall_mem_map.2 fun x (_ : x ∈ p) => (rfl : (Instr.txByte x).appendsPayload = true))
  have hpayload : (p.map Instr.txByte).flatMap Instr.payload = p := by
    simp [List.flatMap_map, Instr.payload]
  rw [hpayload] at hrun
  refine ⟨⟨fun h => ?_, fun hl => ?_⟩, fun t ht => ?_⟩
  · obtain ⟨t, ht⟩ := Option.isSome_iff_exists.1 h
    obtain ⟨-, hl, -⟩ := (hrun t).1 ht
    exact hl
  · exact Option.isSome_iff_exists.2 ⟨_, (hrun _).2 ⟨⟨addrBad_eq_false ha, requestFcBad_eq_false h1 h7⟩, hl, rfl⟩⟩
  · obtain ⟨-, hl, rfl⟩ := (hrun t).1 ht
    have hlen := length_frame a f p
    exact ⟨hlen, (Nat.le_add_left 4 _).trans_eq hlen.symm, hlen.trans_le (by omega)⟩

/-! ## Other commands between -/

/-- If a frame is open, its body is `m` and CRC is the body's. -/
def State.OpenBody (m : List Byte) (s : State) : Prop := s.txstate = .opened → s.txbuf = m ∧ s.crc = crc16 m

theorem payload_eq_nil {i : Instr} (h : i.isTx = false) : i.payload = [] := by
  cases i with
  | txByte | txU16 => cases h
  | _ => rfl

/-- A command that is no TX command and no encoder writes the transmit side only if it is SOFT_RESET. -/
theorem writesTx_eq_false {i : Instr} (ht : i.isTx = false) (he : i.isEncoder = false) (hr : i ≠ .softReset) :
    i.writesTx = false := by
  cases i with
  | softReset => exact absurd rfl hr
  | txBegin | txByte | txU16 | txEnd | txClear => cases ht
  | encRc | encWsc | encWmc | encWmr => cases he
  | _ => rfl

/-- CRC_INIT and CRC_BYTE do not write CRC while a frame is open, so no command but the TX commands, the encoders and
SOFT_RESET touches an open frame (40_crc.md R104, R105). -/
theorem CommandEffect.crc_eq_of_opened {i : Instr} {s u : State} (h : CommandEffect i s u) (hw : i.writesTx = false)
    (ho : s.txstate = .opened) : u.crc = s.crc := by
  cases h with
  | setCrc c hc hs => exact absurd ho hs
  | append m hi => simp [writesTx_of_appendsPayload hi] at hw
  | buildFrame a fc p hi => simp [writesTx_of_isEncoder hi] at hw
  | _ => simp_all [Instr.writesTx]

/-- A payload command that ends OK found the frame open; any other leaves it, or is SOFT_RESET and leaves none open. -/
theorem exec_keeps_openBody {i : Instr} {m : List Byte} {s t : State}
    (hi : i.appendsPayload = true ∨ (i.isTx = false ∧ i.isEncoder = false)) (h : exec i s = .next t)
    (hok : i.isTx = true → t.res = .ok) (hs : s.OpenBody m) : t.OpenBody (m ++ i.payload) := by
  rcases hi with hi | ⟨ht, he⟩
  · obtain ⟨ho, -, rfl⟩ := (exec_appendsPayload_ok_iff hi).1 ⟨h, hok (isTx_of_appendsPayload hi)⟩
    obtain ⟨hbuf, hcrc⟩ := hs ho
    intro _
    simp [hbuf, hcrc, crc16_append]
  · rw [payload_eq_nil ht, List.append_nil]
    intro ho
    by_cases hr : i = .softReset
    · subst hr
      rw [exec_softReset] at h
      cases h; cases ho
    · obtain ⟨code, u, hu, rfl⟩ := effect_of_exec h
      have hw := writesTx_eq_false ht he hr
      obtain ⟨hbuf, hst⟩ := hu.tx_eq hw
      rw [record_txstate, hst] at ho
      rw [record_txbuf, record_crc, hbuf, hu.crc_eq_of_opened hw ho]
      exact hs ho

theorem execTxOk_keeps_openBody {is : List Instr} {m : List Byte} {s u : State}
    (his : ∀ i ∈ is, i.appendsPayload = true ∨ (i.isTx = false ∧ i.isEncoder = false)) (h : execTxOk is s = some u)
    (hs : s.OpenBody m) : u.OpenBody (m ++ is.flatMap Instr.payload) := by
  induction is generalizing m s with
  | nil => cases h; simpa using hs
  | cons i is ih =>
    obtain ⟨hi, his⟩ := List.forall_mem_cons.1 his
    obtain ⟨t, ht, hok, hrest⟩ := execTxOk_cons_iff.1 h
    rw [List.flatMap_cons, ← List.append_assoc]
    exact ih his hrest (exec_keeps_openBody hi ht hok hs)

theorem exec_stays_open {i : Instr} {s : State}
    (hi : i.appendsPayload = true ∨ (i.isTx = false ∧ i.isEncoder = false)) (hr : i ≠ .softReset)
    (ho : s.txstate = .opened) (hl : s.txbuf.length + i.payload.length ≤ 254) :
    ∃ t, exec i s = .next t ∧ (i.isTx = true → t.res = .ok) ∧ t.txstate = .opened ∧
      t.txbuf.length = s.txbuf.length + i.payload.length := by
  rcases hi with hi | ⟨ht, he⟩
  · exact ⟨_, exec_of_appendsPayload hi ho hl, fun _ => record_res .ok _, by simp [ho], by simp⟩
  · obtain ⟨code, u, hu, hexec⟩ := completes_exec i s
    obtain ⟨hbuf, hst⟩ := hu.tx_eq (writesTx_eq_false ht he hr)
    exact ⟨_, hexec, by simp [ht], by simp [hst, ho], by simp [hbuf, payload_eq_nil ht]⟩

/-- While a frame with room for the payload is open, the payload commands end OK and the others leave it open. -/
theorem execTxOk_stays_open {is : List Instr} {s : State}
    (his : ∀ i ∈ is, i.appendsPayload = true ∨ (i.isTx = false ∧ i.isEncoder = false)) (hr : .softReset ∉ is)
    (ho : s.txstate = .opened) (hl : s.txbuf.length + (is.flatMap Instr.payload).length ≤ 254) :
    ∃ u, execTxOk is s = some u ∧ u.txstate = .opened := by
  induction is generalizing s with
  | nil => exact ⟨s, rfl, ho⟩
  | cons i is ih =>
    obtain ⟨hi, his⟩ := List.forall_mem_cons.1 his
    rw [List.flatMap_cons, List.length_append] at hl
    obtain ⟨t, ht, hok, hto, htl⟩ :=
      exec_stays_open hi (List.ne_of_not_mem_cons hr).symm ho (by omega)
    obtain ⟨u, hu, huo⟩ := ih his (List.not_mem_of_not_mem_cons hr) hto (by omega)
    exact ⟨u, execTxOk_cons_iff.2 ⟨t, ht, hok, hu⟩, huo⟩

/-- Settles O36: the commands between keep the open frame's body and CRC, which TX_END seals; and without SOFT_RESET the
frame stays open until then. -/
theorem assemblyProducesTheFrame : Obligations.AssemblyProducesTheFrame := by
  intro a f is s his
  refine ⟨fun t ht => ?_, fun ha h1 h7 hl hr => ?_⟩
  · obtain ⟨-, v, hv, ho, rfl⟩ := execTxOk_assembly_iff.1 ht
    have hstart : (record .ok (txBegin a f (txDiscard s))).OpenBody [a, f] := fun _ => ⟨rfl, rfl⟩
    obtain ⟨hbuf, hcrc⟩ := execTxOk_keeps_openBody his hv hstart ho
    have hframe : (record .ok (txSeal v)).txbuf = frame a f (is.flatMap Instr.payload) := by
      rw [record_txbuf, txSeal_txbuf, hbuf, hcrc]; rfl
    exact ⟨hframe, hframe ▸ length_frame a f _, record_txstate .ok _, hcrc, record_res .ok _⟩
  · obtain ⟨v, hv, ho⟩ := execTxOk_stays_open his hr (s := record .ok (txBegin a f (txDiscard s))) rfl
      (by simp only [record_txbuf, txBegin_txbuf, List.length_cons, List.length_nil]; omega)
    exact Option.isSome_iff_exists.2
      ⟨_, execTxOk_assembly_iff.2 ⟨⟨addrBad_eq_false ha, requestFcBad_eq_false h1 h7⟩, v, hv, ho, rfl⟩⟩

end Sys2Proof.Machine
end

section
/-! PROOFS. The operand checks, and the common order of the encoders (spec/42_encoders.md R140 to R142). -/

namespace Sys2Proof.Machine

/-! ## The operand checks -/

theorem addrBad_eq_true_iff (a : Byte) : addrBad a = true ↔ 247 < a.toNat := decide_eq_true_iff

theorem chanOk_eq_true_iff (count : Word) (ch : Nat) : chanOk count ch = true ↔ 1 ≤ ch ∧ ch ≤ count.toNat := by
  rw [chanOk, Bool.and_eq_true, decide_eq_true_iff, decide_eq_true_iff]

theorem chanOk_eq_false {count : Word} {ch : Nat} (h : ch = 0 ∨ count.toNat < ch) : chanOk count ch = false := by
  rw [Bool.eq_false_iff, Ne, chanOk_eq_true_iff]
  omega

/-- With at least one channel, `start + q - 1` is no truncated subtraction. -/
theorem spanOk_eq_true_iff (count : Word) (start q qmax : Nat) :
    spanOk count start q qmax = true ↔
      1 ≤ start ∧ start ≤ count.toNat ∧ 1 ≤ q ∧ q ≤ qmax ∧ start + q ≤ count.toNat + 1 := by
  simp only [spanOk, Bool.and_eq_true, chanOk_eq_true_iff, decide_eq_true_iff]
  omega

theorem spanOk_eq_false {count : Word} {start q qmax : Nat}
    (h : start = 0 ∨ count.toNat < start ∨ q = 0 ∨ qmax < q ∨ count.toNat + 1 < start + q) :
    spanOk count start q qmax = false := by
  rw [Bool.eq_false_iff, Ne, spanOk_eq_true_iff]
  omega

theorem toNat_wireOffset {ch : Word} (h : 1 ≤ ch.toNat) : (wireOffset ch).toNat = ch.toNat - 1 :=
  BitVec.toNat_sub_of_le h

/-- Settles O40: a valid channel is at least 1, so the subtraction does not wrap, and at most 65535. -/
theorem wireOffsetDoesNotWrap : Obligations.WireOffsetDoesNotWrap := by
  intro count ch h
  obtain ⟨hpos, -⟩ := (chanOk_eq_true_iff count ch.toNat).1 h
  have hlt := ch.isLt
  rw [toNat_wireOffset hpos]
  exact ⟨rfl, by omega⟩

/-! ## The three ends of an encoder -/

section

variable {a : Byte}

theorem runEncoder_of_addrBad (h : 247 < a.toNat) (okay : Bool) (fc : Byte) (p : List Byte) (s : State) :
    runEncoder a okay fc p s = .next { s with txbuf := [], txstate := .idle, res := .config, serr := true } := by
  rw [runEncoder_eq, if_pos (addrBad_eq_true h)]

variable {okay : Bool} (ha : a.toNat ≤ 247)
include ha

theorem runEncoder_of_operandsBad (ho : okay = false) (fc : Byte) (p : List Byte) (s : State) :
    runEncoder a okay fc p s = .next { s with txbuf := [], txstate := .idle, res := .range, serr := true } := by
  rw [runEncoder_eq, addrBad_eq_false ha, if_neg Bool.false_ne_true, if_pos ho]

theorem runEncoder_of_checksPass (ho : okay = true) (fc : Byte) (p : List Byte) (s : State) :
    runEncoder a okay fc p s =
      .next { s with txbuf := frame a fc p, crc := crc16 (a :: fc :: p), txstate := .sealed, res := .ok } := by
  rw [runEncoder_eq, addrBad_eq_false ha, if_neg Bool.false_ne_true, if_neg (ne_false_of_eq_true ho)]

end

/-! ## Every encoder -/

/-- The address an encoder's common order checks is the operand A of its command word. -/
theorem exec_eq_runEncoder_fieldA {i : Instr} (h : i.isEncoder = true) (s : State) :
    ∃ a okay fc p, fieldA (encode i) = a ∧ exec i s = runEncoder a okay fc p s := by
  cases i with
  | encRc | encWsc | encWmc | encWmr => exact ⟨_, _, _, _, fieldA_assemble .., rfl⟩
  | _ => cases h

theorem drop_withCrc (m : List Byte) : (withCrc m).drop ((withCrc m).length - 2) = crcBytes (crc16 m) := by
  simp [withCrc, crcBytes]

/-- Settles O39: of the three ends of the common order the first alone is CONFIG, and the third leaves a frame. -/
theorem encodersDropTheOldFrame : Obligations.EncodersDropTheOldFrame := by
  intro i s hi
  obtain ⟨a, okay, fc, p, ha, he⟩ := exec_eq_runEncoder_fieldA hi s
  rw [ha, he]
  by_cases hbad : 247 < a.toNat
  · exact ⟨_, runEncoder_of_addrBad hbad okay fc p s, rfl, iff_of_true hbad rfl, .inl ⟨.inl rfl, rfl, rfl, rfl⟩⟩
  have hle : a.toNat ≤ 247 := Nat.not_lt.1 hbad
  cases okay with
  | false =>
    exact ⟨_, runEncoder_of_operandsBad hle rfl fc p s, rfl, iff_of_false hbad Result.noConfusion,
      .inl ⟨.inr rfl, rfl, rfl, rfl⟩⟩
  | true =>
    refine ⟨_, runEncoder_of_checksPass hle rfl fc p s, rfl, iff_of_false hbad Result.noConfusion,
      .inr ⟨rfl, rfl, ?_, ?_, drop_withCrc (a :: fc :: p)⟩⟩
    · rw [length_frame]
      exact Nat.le_add_left 4 _
    · exact congrArg crc16 (take_withCrc (a :: fc :: p)).symm

end Sys2Proof.Machine
end

section
/-! PROOFS. The encoders one by one (spec/42_encoders.md R144 to R147). -/

namespace Sys2Proof.Machine

/-! ## Their words -/

/-- A state bit in a field is its low bit. -/
theorem bitField_eq (on : Bool) : bitField on = 0#15 ++ BitVec.ofBool on := by
  cases on <;> rfl

/-- A word whose last operand is a state bit in D. -/
theorem assemble_bitField_d (op : BitVec 8) (a : Byte) (b c : Word) (on : Bool) :
    assemble op a b c (bitField on) = op ++ a ++ b ++ c ++ 0#15 ++ BitVec.ofBool on := by
  have hassoc : op ++ a ++ b ++ c ++ 0#15 ++ BitVec.ofBool on = op ++ a ++ b ++ c ++ (0#15 ++ BitVec.ofBool on) :=
    BitVec.append_assoc
  rw [assemble, bitField_eq, hassoc]

/-- A word with a state bit in C and D zero. -/
theorem assemble_bitField_c (op : BitVec 8) (a : Byte) (b : Word) (on : Bool) :
    assemble op a b (bitField on) 0#16 = op ++ a ++ b ++ 0#15 ++ BitVec.ofBool on ++ 0#16 := by
  have hassoc : op ++ a ++ b ++ 0#15 ++ BitVec.ofBool on = op ++ a ++ b ++ (0#15 ++ BitVec.ofBool on) :=
    BitVec.append_assoc
  rw [assemble, bitField_eq, hassoc]

/-! ## The commands without data bytes -/

/-- Settles O41: the three outcomes are the ends of the common order, by the span check of R141. -/
theorem encRcBuildsReadCoils : Obligations.EncRcBuildsReadCoils := by
  refine ⟨fun a b c => decodeOfEncodeIsTheCommand (.encRc a b c), unusedBitsEndIllegal rfl rfl, fun a b c s =>
    ⟨fun ha => runEncoder_of_addrBad ha .., fun ha hr => runEncoder_of_operandsBad ha (spanOk_eq_false hr) ..,
      fun ha hb hb' hc hc' hbc => ?_⟩⟩
  exact runEncoder_of_checksPass ha ((spanOk_eq_true_iff ..).2 ⟨hb, hb', hc, hc', hbc⟩) ..

theorem beBytes_coilPattern (on : Bool) : beBytes (coilPattern on) = [if on then 0xFF#8 else 0x00#8, 0x00#8] := by
  cases on <;> rfl

/-- Settles O42: the three outcomes are the ends of the common order, by the channel check of R141. -/
theorem encWscBuildsWriteSingleCoil : Obligations.EncWscBuildsWriteSingleCoil := by
  refine ⟨fun a b on => ?_, unusedBitsEndIllegal rfl rfl, fun a b on s =>
    ⟨fun ha => runEncoder_of_addrBad ha .., fun ha hr => runEncoder_of_operandsBad ha (chanOk_eq_false hr) ..,
      fun ha hb hb' => ?_⟩⟩
  · rw [← assemble_bitField_c]
    exact decodeOfEncodeIsTheCommand (.encWsc a b on)
  · have hexec : exec (.encWsc a b on) s = _ :=
      runEncoder_of_checksPass ha ((chanOk_eq_true_iff ..).2 ⟨hb, hb'⟩) ..
    rw [hexec, beBytes_coilPattern]
    rfl

/-- Settles O45: the only check is the address's. -/
theorem encWmrBuildsWriteMultipleRegisters : Obligations.EncWmrBuildsWriteMultipleRegisters :=
  ⟨fun a b c => decodeOfEncodeIsTheCommand (.encWmr a b c), unusedBitsEndIllegal rfl rfl, fun _ _ _ _ =>
    ⟨fun ha => runEncoder_of_addrBad ha .., fun ha => runEncoder_of_checksPass ha rfl ..⟩⟩

/-! ## ENC_WMC and its data bytes -/

theorem ceilDiv8_eq (q : Nat) : ceilDiv8 q = (q + 7) / 8 := Nat.shiftRight_eq_div_pow (q + 7) 3

/-- Settles O43: the three outcomes are the ends of the common order, by the span check of R141. -/
theorem encWmcBuildsWriteMultipleCoils : Obligations.EncWmcBuildsWriteMultipleCoils := by
  refine ⟨fun a b c on => ?_, unusedBitsEndIllegal rfl rfl, fun a b c on s =>
    ⟨fun ha => runEncoder_of_addrBad ha .., fun ha hr => runEncoder_of_operandsBad ha (spanOk_eq_false hr) ..,
      fun ha hb hb' hc hc' hbc body hbody => ?_⟩⟩
  · rw [← assemble_bitField_d]
    exact decodeOfEncodeIsTheCommand (.encWmc a b c on)
  · have hexec : exec (.encWmc a b c on) s = _ :=
      runEncoder_of_checksPass ha ((spanOk_eq_true_iff ..).2 ⟨hb, hb', hc, hc', hbc⟩) ..
    rw [hexec, hbody, coilBytes, ceilDiv8_eq]
    rfl

/-- The frame of an ENC_WMC that ends OK: seven bytes, the data bytes, and the two CRC bytes (42_encoders.md R146). -/
theorem txbuf_of_encWmc_ok {a : Byte} {b c : Word} {on : Bool} {s t : State}
    (h : exec (.encWmc a b c on) s = .next t) (hok : t.res = .ok) :
    ∃ header crc, header.length = 7 ∧ crc.length = 2 ∧ t.txbuf = header ++ coilBytes c.toNat on ++ crc :=
  ⟨a :: Config.fcWmc :: (beBytes (wireOffset b) ++ beBytes c ++ [BitVec.ofNat 8 (ceilDiv8 c.toNat)]), crcBytes _, rfl,
    rfl, txbuf_of_runEncoder_ok h hok⟩

theorem getElem_coilBytes {q j : Nat} {on : Bool} (h : j < (coilBytes q on).length) :
    (coilBytes q on)[j] = coilByte q on j := by
  simp [coilBytes]

/-- Bit `r` of data byte `j` is the state of coil `8j + r`, if the span has that coil. -/
theorem getLsbD_coilByte {r : Nat} (hr : r < 8) (q j : Nat) (on : Bool) :
    (coilByte q on j).getLsbD r = (on && decide (8 * j + r < q)) := by
  cases on with
  | false => exact BitVec.getLsbD_zero
  | true =>
    have hbit : r < min 8 (q - 8 * j) ↔ 8 * j + r < q := by omega
    rw [coilByte, if_pos rfl, BitVec.getLsbD_ofNat, Nat.testBit_two_pow_sub_one, decide_eq_true hr,
      decide_eq_decide.2 hbit]

/-- An index past the first of three parts and within the second. -/
theorem byteAt_append_append {m : List Byte} {i : Nat} (h : i < m.length) (pre post : List Byte) :
    byteAt (pre ++ m ++ post) (pre.length + i) = m[i] := by
  rw [byteAt, List.append_assoc, List.getElem?_append_right (Nat.le_add_right ..), Nat.add_sub_cancel_left,
    List.getElem?_append_left h, List.getElem?_eq_getElem h, Option.getD_some]

/-- Settles O44: coil `k` is bit `k mod 8` of data byte `k div 8`, which follows the seven bytes before the data. -/
theorem encWmcSetsEveryCoilOfTheSpan : Obligations.EncWmcSetsEveryCoilOfTheSpan := by
  intro a b c on s t h hok
  obtain ⟨header, crc, hheader, hcrc, hbuf⟩ := txbuf_of_encWmc_ok h hok
  have hlen := length_coilBytes c.toNat on
  refine ⟨by rw [hbuf, List.length_append, List.length_append, hheader, hcrc, hlen]; omega, fun k hk => ?_⟩
  have hj : k / 8 < (coilBytes c.toNat on).length := by omega
  have hbyte : byteAt t.txbuf (7 + k / 8) = coilByte c.toNat on (k / 8) := by
    rw [hbuf, ← hheader, byteAt_append_append hj, getElem_coilBytes]
  rw [hbyte, getLsbD_coilByte (Nat.mod_lt k (by decide)), Nat.div_add_mod]

end Sys2Proof.Machine
end

section
/-! PROOFS. Capturing a response: RX_CLEAR and RX_BYTE (spec/43_frame_rx.md R171, R172). -/

namespace Sys2Proof.Machine

/-- Settles O46: RX_CLEAR has one outcome in every state. -/
theorem rxClearEmptiesTheBuffer : Obligations.RxClearEmptiesTheBuffer :=
  ⟨decodeOfEncodeIsTheCommand .rxClear, unusedBitsEndIllegal rfl rfl, exec_rxClear_eq⟩

/-- Settles O47: the word is the encoding of RX_BYTE A, and the two outcomes are the command's two branches. -/
theorem rxByteAppendsOrOverflows : Obligations.RxByteAppendsOrOverflows := by
  refine ⟨fun a => ?_, unusedBitsEndIllegal rfl rfl, fun a _ =>
    ⟨fun h => exec_rxByte_of_full h a, fun h => exec_rxByte_of_room h a⟩⟩
  rw [← assemble_a_only]
  exact decodeOfEncodeIsTheCommand (.rxByte a)

end Sys2Proof.Machine
end

section
/-! PROOFS. DEC_CHECK and DEC_ECHO: the first check that fails, the echo, and what a decode leaves to be read
(spec/43_frame_rx.md R175 to R180). -/

namespace Sys2Proof.Machine

/-! ## DEC_CHECK -/

/-- Settles O49: the checks of `rx_decode` one after the other, each clause by the check that fails first. -/
theorem decCheckReportsTheFirstFailedCheck : Obligations.DecCheckReportsTheFirstFailedCheck := by
  refine ⟨fun a fc => ?_, unusedBitsEndIllegal rfl rfl, fun a fc s =>
    ⟨fun ho => ?_, fun ho hl => ?_, fun x y p l h ho hs => ?_⟩⟩
  · rw [← assemble_a_shortField]
    exact decodeOfEncodeIsTheCommand (.decCheck a fc)
  · rw [exec_decCheck, rxDecode_overflow a fc ho]
    rfl
  · rw [exec_decCheck, rxDecode_short a fc ho hl]
    rfl
  rw [exec_decCheck, rxDecode_parts a fc x y p l h s hs ho,
    rxHeader_parts a fc x y p l h { s with exc := 0#8, plen := 0#16, rxcrc := crc16 (x :: y :: p) } hs]
  refine ⟨fun (hc : crc16 (x :: y :: p) ≠ h ++ l) => ?_, fun (hc : crc16 (x :: y :: p) = h ++ l) => ?_⟩
  · rw [if_pos hc]
    rfl
  rw [if_neg (not_not_intro hc)]
  refine ⟨fun hx => ?_, fun hx hy hp => ?_, fun e q hx hy hp => ?_, fun hx hy hf => ?_, fun hx hy hf => ?_⟩
  · rw [if_pos hx]
    rfl
  · rw [if_neg (not_not_intro hx), if_pos hy, hp]
    rfl
  · rw [if_neg (not_not_intro hx), if_pos hy, hp]
    rfl
  · rw [if_neg (not_not_intro hx), hy, if_neg Bool.false_ne_true, if_pos hf]
    rfl
  · rw [if_neg (not_not_intro hx), hy, if_neg Bool.false_ne_true, if_neg (not_not_intro hf)]
    rfl

/-! ## DEC_ECHO -/

theorem exec_decEcho_of_not_sealed {s : State} (h : s.txstate ≠ .sealed) :
    exec .decEcho s = .next { s with res := .sequence, serr := true } :=
  if_pos h

/-- With a sealed request DEC_ECHO runs the decode function with the request's first two bytes (43_frame_rx.md R177). -/
theorem exec_decEcho_of_sealed {s : State} (h : s.txstate = .sealed) :
    exec .decEcho s =
      .next (record (echoResult (rxDecode (byteAt s.txbuf 0) (byteAt s.txbuf 1) s).1 s)
        (rxDecode (byteAt s.txbuf 0) (byteAt s.txbuf 1) s).2) :=
  if_neg (not_not_intro h)

theorem echoResult_of_ne_ok {r : Result} (h : r ≠ .ok) (s : State) : echoResult r s = r :=
  if_neg fun hr => h hr.1

theorem echoResult_of_echo (r : Result) {s : State} (h : s.rxbuf = s.txbuf) : echoResult r s = r :=
  if_neg fun hr => hr.2 h

theorem echoResult_ok_of_ne {s : State} (h : s.rxbuf ≠ s.txbuf) : echoResult .ok s = .echoMismatch :=
  if_pos ⟨rfl, h⟩

/-- The comparison with the request only turns OK into ECHO_MISMATCH. -/
theorem echoResult_cases (r : Result) (s : State) : echoResult r s = r ∨ r = .ok ∧ echoResult r s = .echoMismatch := by
  unfold echoResult
  split
  next h => exact .inr ⟨h.1, rfl⟩
  next => exact .inl rfl

theorem eq_ok_of_echoResult_eq_ok {r : Result} {s : State} (h : echoResult r s = .ok) : r = .ok := by
  obtain he | ⟨hr, -⟩ := echoResult_cases r s
  · exact he ▸ h
  · exact hr

/-- Settles O50: both commands run the same decode, and their results differ only by the comparison with the request. -/
theorem decEchoChecksTheEcho : Obligations.DecEchoChecksTheEcho := by
  refine ⟨decodeOfEncodeIsTheCommand .decEcho, unusedBitsEndIllegal rfl rfl, fun s =>
    ⟨exec_decEcho_of_not_sealed, fun a fc rest hsealed hbuf => ⟨_, exec_decCheck a fc s, ?_⟩⟩⟩
  rw [exec_decEcho_of_sealed hsealed, hbuf, byteAt_cons_zero, byteAt_cons_one, ← hbuf, record_res]
  refine ⟨fun hok hne => ?_, fun _ heq => ?_, fun hok => ?_⟩
  · rw [hok, echoResult_ok_of_ne hne]
    rfl
  · rw [echoResult_of_echo _ heq]
  · rw [echoResult_of_ne_ok hok]

/-! ## The true echo -/

/-- Of the request's own bytes DEC_ECHO is DEC_CHECK with the request's header. -/
theorem exec_decEcho_of_echo {s : State} (hs : s.txstate = .sealed) (he : s.rxbuf = s.txbuf) :
    exec .decEcho s = exec (.decCheck (byteAt s.txbuf 0) (byteAt s.txbuf 1)) s := by
  rw [exec_decEcho_of_sealed hs, echoResult_of_echo _ he, exec_decCheck]

/-- A sealed frame that meets R25 is a frame with a request function code. -/
theorem exists_eq_frame_of_sealed {s : State} (hs : s.TxInv) (h : s.txstate = .sealed) :
    ∃ a fc p, s.txbuf = frame a fc p ∧ fc.getLsbD 7 = false := by
  obtain ⟨-, -, hsealed, hheader⟩ := hs
  obtain ⟨hlen, -, hcrc⟩ := hsealed h
  obtain ⟨a, fc, p, l, u, hbuf⟩ := exists_frame_parts hlen
  have hbody : s.txbuf.take (s.txbuf.length - 2) = a :: fc :: p := by simp [hbuf]
  rw [hbody] at hcrc
  obtain ⟨-, hpos, hle⟩ := hheader (by omega)
  rw [hbuf, byteAt_cons_one] at hpos hle
  obtain ⟨-, hbit⟩ := Bool.or_eq_false_iff.1 (requestFcBad_eq_false hpos hle)
  exact ⟨a, fc, p, hcrc, hbit⟩

/-- Settles O51: the sealed request is a frame with the address and the function code that DEC_ECHO expects. -/
theorem trueEchoIsAccepted : Obligations.TrueEchoIsAccepted := by
  intro s hinv hsealed ho hecho
  obtain ⟨a, fc, p, hbuf, hbit⟩ := exists_eq_frame_of_sealed hinv hsealed
  have haddr : byteAt s.txbuf 0 = a := congrArg (byteAt · 0) hbuf
  have hfc : byteAt s.txbuf 1 = fc := congrArg (byteAt · 1) hbuf
  have hbody : s.txbuf.take (s.txbuf.length - 2) = a :: fc :: p := hbuf ▸ take_withCrc (a :: fc :: p)
  have hlen : s.txbuf.length - 4 = p.length := by rw [hbuf, length_frame, Nat.add_sub_cancel]
  rw [exec_decEcho_of_echo hsealed hecho, haddr, hfc, exec_decCheck_of_frame (hecho.trans hbuf) ho hbit, hbody, hlen]

/-! ## What a decode leaves to be read -/

/-- What R178 lets the host read after a decode of `s` that ended with a result: the payload or the frame to inspect,
the exception code, or nothing. -/
inductive DecodeReport (s : State) : Result → State → Prop
  | frame {r : Result} {u : State} (hr : r = .ok ∨ r = .funcMismatch ∨ r = .echoMismatch) (hl : 4 ≤ s.rxbuf.length)
      (hplen : u.plen = BitVec.ofNat 16 (s.rxbuf.length - 4)) (hexc : u.exc = 0x00#8) : DecodeReport s r u
  | exception {u : State} (hexc : s.rxbuf[2]? = some u.exc) : DecodeReport s .exception u
  | nothing {r : Result} {u : State} (hr : r = .crcMismatch ∨ r = .addrMismatch ∨ r = .shortFrame ∨ r = .overflow)
      (hplen : u.plen = 0#16) (hexc : u.exc = 0x00#8) : DecodeReport s r u

/-- The header checks, on a state whose EXC and PLEN the decode has cleared. -/
theorem decodeReport_rxHeader (ea ef : Byte) {s u : State} (hl : 4 ≤ s.rxbuf.length) (hbuf : u.rxbuf = s.rxbuf)
    (hplen : u.plen = 0#16) (hexc : u.exc = 0x00#8) :
    DecodeReport s (rxHeader ea ef u).1 (rxHeader ea ef u).2 := by
  unfold rxHeader
  split_ifs with haddr hflag hshort hfunc
  · exact .nothing (.inr (.inl rfl)) hplen hexc
  · exact .nothing (.inr (.inr (.inl rfl))) hplen hexc
  · have h2 : 2 < s.rxbuf.length := by omega
    refine .exception ?_
    rw [setPlen_exc, hbuf, byteAt_of_lt h2, List.getElem?_eq_getElem h2]
  · exact .frame (.inr (.inl rfl)) hl (by rw [setPlen_plen, hbuf]) hexc
  · exact .frame (.inl rfl) hl (by rw [setPlen_plen, hbuf]) hexc

theorem decodeReport_rxDecode (ea ef : Byte) (s : State) :
    DecodeReport s (rxDecode ea ef s).1 (rxDecode ea ef s).2 := by
  cases ho : s.rxovf with
  | true =>
    rw [rxDecode_overflow ea ef ho]
    exact .nothing (.inr (.inr (.inr rfl))) rfl rfl
  | false =>
    by_cases hl : s.rxbuf.length < 4
    · rw [rxDecode_short ea ef ho hl]
      exact .nothing (.inr (.inr (.inl rfl))) rfl rfl
    · obtain ⟨x, y, p, l, h, hs⟩ := exists_frame_parts (Nat.not_lt.1 hl)
      rw [rxDecode_parts ea ef x y p l h s hs ho]
      split_ifs with hc
      · exact .nothing (.inl rfl) rfl rfl
      · exact decodeReport_rxHeader ea ef (Nat.not_lt.1 hl) rfl rfl rfl

/-- The comparison with the request changes no report: ECHO_MISMATCH leaves the frame to inspect, as OK does. -/
theorem decodeReport_echoResult {s u : State} {r : Result} (h : DecodeReport s r u) :
    DecodeReport s (echoResult r s) u := by
  obtain he | ⟨rfl, he⟩ := echoResult_cases r s
  · rwa [he]
  · rw [he]
    cases h with
    | frame hr hl hplen hexc => exact .frame (.inr (.inr rfl)) hl hplen hexc
    | nothing hr => simp at hr

/-- A decode command ends SEQUENCE, or it reports a decode and leaves the receive buffer. -/
theorem decodeReport_of_isDecode {i : Instr} (hi : i.isDecode = true) (s : State) :
    ∃ r u, exec i s = .next (record r u) ∧ (r = .sequence ∨ DecodeReport s r u ∧ u.rxbuf = s.rxbuf) := by
  cases i with
  | decCheck a fc =>
    exact ⟨_, _, exec_decCheck a fc s, .inr ⟨decodeReport_rxDecode a fc s, rxDecode_rxbuf a fc s⟩⟩
  | decEcho =>
    by_cases hs : s.txstate = .sealed
    · exact ⟨_, _, exec_decEcho_of_sealed hs,
        .inr ⟨decodeReport_echoResult (decodeReport_rxDecode _ _ s), rxDecode_rxbuf _ _ s⟩⟩
    · exact ⟨.sequence, s, exec_decEcho_of_not_sealed hs, .inl rfl⟩
  | _ => cases hi

/-- Settles O53: each clause is one kind of report; PLEN, at most 252, does not wrap, and the payload's addresses stay
in the window of RXBUF. -/
theorem payloadSlice : Obligations.PayloadSlice := by
  intro i s hi hn
  obtain ⟨r, u, hexec, hr⟩ := decodeReport_of_isDecode hi s
  refine ⟨_, hexec, ?_⟩
  simp only [regRead_zero, status_exc, record_res, record_plen, record_exc]
  obtain rfl | ⟨hreport, hbuf⟩ := hr
  · simp
  cases hreport with
  | exception hexc => simp [hexc]
  | nothing hr hplen hexc => obtain rfl | rfl | rfl | rfl := hr <;> simp [hplen, hexc]
  | frame hr hl hplen hexc =>
    have hlen : u.plen.toNat = s.rxbuf.length - 4 := by rw [hplen, toNat_word_of_le (by omega)]
    have hread (k : Nat) (hk : k < u.plen.toNat) :
        some (regRead (BitVec.ofNat 10 (0x202 + k)) (record r u)) = (s.rxbuf[2 + k]?).map (·.setWidth 16) := by
      have hk : 2 + k < s.rxbuf.length := by omega
      rw [Nat.add_assoc 0x200 2 k, regRead_rxbuf_at (by omega), record_rxbuf, hbuf, bufferRead_eq, dif_pos hk,
        List.getElem?_eq_getElem hk, Option.map_some]
    exact ⟨fun _ => ⟨hl, hlen, hexc, hread⟩, fun h => by simp [h] at hr, fun _ => ⟨hlen, hexc⟩,
      fun h => by obtain rfl | rfl | rfl | rfl := h <;> simp at hr⟩

/-! ## Changed CRC bytes -/

/-- The checks up to the CRC check, for a decode that ends OK. -/
theorem checks_of_rxDecode_ok {ea ef : Byte} {s : State} (h : (rxDecode ea ef s).1 = .ok) :
    s.rxovf = false ∧ 4 ≤ s.rxbuf.length ∧ crc16 (s.rxbuf.take (s.rxbuf.length - 2)) = embeddedCrc s.rxbuf := by
  simp only [rxDecode, rxBody] at h
  split_ifs at h with ho hl hc
  exact ⟨by simpa using ho, Nat.not_lt.1 hl, not_not.1 hc⟩

theorem rxDecode_of_crc_ne (ea ef : Byte) {s : State} (ho : s.rxovf = false) (hl : 4 ≤ s.rxbuf.length)
    (hc : crc16 (s.rxbuf.take (s.rxbuf.length - 2)) ≠ embeddedCrc s.rxbuf) :
    (rxDecode ea ef s).1 = .crcMismatch := by
  simp [rxDecode, rxBody, ho, Nat.not_lt.2 hl, hc]

theorem take_append_pair (m : List Byte) (l h : Byte) : (m ++ [l, h]).take ((m ++ [l, h]).length - 2) = m := by
  simp

/-- R180 for the decode function: the CRC of the unchanged body is the old pair, and so not the new one. -/
theorem rxDecode_changed_crc {ea ef : Byte} {s : State} {m : List Byte} {l h l' h' : Byte}
    (hs : s.rxbuf = m ++ [l, h]) (hok : (rxDecode ea ef s).1 = .ok) (hne : l' ≠ l ∨ h' ≠ h) :
    (rxDecode ea ef { s with rxbuf := m ++ [l', h'] }).1 = .crcMismatch := by
  obtain ⟨ho, hl, hc⟩ := checks_of_rxDecode_ok hok
  rw [hs, take_append_pair, embeddedCrc_append, ← crcBytes_eq_iff] at hc
  refine rxDecode_of_crc_ne ea ef ho (by simpa [hs] using hl) ?_
  rw [take_append_pair, embeddedCrc_append, Ne, ← crcBytes_eq_iff, hc]
  rintro ⟨⟩
  exact hne.elim (· rfl) (· rfl)

/-- Settles O54: a decode command that ends OK has run the decode function with that result, and runs it again with the
same address and function code. -/
theorem changedCrcBytesAreCaught : Obligations.ChangedCrcBytesAreCaught := by
  intro i s t m l h l' h' hi hs ht hok hne
  cases i with
  | decCheck a fc =>
    rw [exec_decCheck] at ht
    cases ht
    rw [record_res] at hok
    exact ⟨_, exec_decCheck a fc _, (record_res _ _).trans (rxDecode_changed_crc hs hok hne)⟩
  | decEcho =>
    by_cases hsealed : s.txstate = .sealed
    · rw [exec_decEcho_of_sealed hsealed] at ht
      cases ht
      rw [record_res] at hok
      have hmismatch := rxDecode_changed_crc hs (eq_ok_of_echoResult_eq_ok hok) hne
      refine ⟨_, exec_decEcho_of_sealed hsealed, ?_⟩
      rw [record_res, hmismatch, echoResult_of_ne_ok (by decide)]
    · rw [exec_decEcho_of_not_sealed hsealed] at ht
      cases ht
      cases hok
  | _ => cases hi

end Sys2Proof.Machine
end

section
/-! PROOFS. The block control commands (spec/44_control.md R200 to R203). -/

namespace Sys2Proof.Machine

theorem exec_nop (s : State) : exec .nop s = .next { s with res := .ok } := rfl

theorem exec_clrErr (s : State) : exec .clrErr s = .next { s with res := .ok, serr := false } := rfl

theorem exec_setChcount_of_eq_zero {b : Word} (h : b = 0#16) (s : State) :
    exec (.setChcount b) s = .next { s with res := .config, serr := true } :=
  if_pos h

theorem exec_setChcount_of_ne_zero {b : Word} (h : b ≠ 0#16) (s : State) :
    exec (.setChcount b) s = .next { s with chcount := b, res := .ok } :=
  if_neg h

/-- Settles O21: the all-zero word is the encoding of NOP, which has one outcome in every state. -/
theorem nopSetsOnlyRes : Obligations.NopSetsOnlyRes :=
  ⟨decodeOfEncodeIsTheCommand .nop, unusedBitsEndIllegal rfl rfl, exec_nop⟩

/-- Settles O22: ending OK does not raise the SERR the command has cleared. -/
theorem clrErrClearsSerrOnly : Obligations.ClrErrClearsSerrOnly :=
  ⟨decodeOfEncodeIsTheCommand .clrErr, unusedBitsEndIllegal rfl rfl, exec_clrErr⟩

/-- Settles O23: the word is the encoding of SET_CHCOUNT B, and the two outcomes are the command's two branches. -/
theorem setChcountRefusesZero : Obligations.SetChcountRefusesZero := by
  refine ⟨fun b => ?_, unusedBitsEndIllegal rfl rfl, fun _ s =>
    ⟨fun h => exec_setChcount_of_eq_zero h s, fun h => exec_setChcount_of_ne_zero h s⟩⟩
  rw [← assemble_a_b_only]
  exact decodeOfEncodeIsTheCommand (.setChcount b)

/-- Settles O24: the reset state has RES OK, so ending the command changes nothing more. -/
theorem softResetGivesTheResetState : Obligations.SoftResetGivesTheResetState :=
  ⟨decodeOfEncodeIsTheCommand .softReset, unusedBitsEndIllegal rfl rfl, exec_softReset⟩

end Sys2Proof.Machine
end

section
/-! PROOFS. SERR keeps that a command failed, and RES is written only (spec/60_exceptions.md R224, R229). -/

namespace Sys2Proof.Machine

/-! ## SERR -/

theorem CommandEffect.serr_eq {i : Instr} {s u : State} (h : CommandEffect i s u) (hw : i.clearsSerr = false) :
    u.serr = s.serr := by
  cases h with
  | clearSerr hi | reset hi => subst hi; cases hw
  | append m => rw [txPushAll_eq]
  | buildFrame a fc p => rw [txSeal_txPushAll_txBegin]; rfl
  | decode ea ef =>
    obtain ⟨_, _, _, hf⟩ := rxDecode_frame ea ef s
    rw [hf]
  | _ => rfl

theorem clearsSerr_iff (i : Instr) : i.clearsSerr = true ↔ i = .clrErr ∨ i = .softReset := by
  cases i <;> simp [Instr.clearsSerr]

/-- SERR after a command: cleared, or raised by a failure and otherwise kept. -/
theorem serr_of_exec {i : Instr} {s t : State} (h : exec i s = .next t) :
    t.serr = if i.clearsSerr then false else (s.serr || decide (t.res ≠ .ok)) := by
  cases hw : i.clearsSerr with
  | true =>
    obtain rfl | rfl := (clearsSerr_iff i).1 hw
    · cases (exec_clrErr s).symm.trans h; rfl
    · cases (exec_softReset s).symm.trans h; rfl
  | false =>
    obtain ⟨code, u, hu, rfl⟩ := effect_of_exec h
    rw [record_serr, record_res, hu.serr_eq hw, if_neg Bool.false_ne_true]

/-- A command word that clears SERR is CLR_ERR's or SOFT_RESET's; an ILLEGAL word raises it. -/
theorem clearing_word {w : CommandWord} {s t : State} (h : takeCommand w s = .next t) (hs : s.serr = true)
    (ht : t.serr = false) : decode w = .ok .clrErr ∨ decode w = .ok .softReset := by
  cases hd : decode w with
  | error e =>
    cases (takeCommand_of_reject hd s).symm.trans h
    simp [hs] at ht
  | ok i =>
    rw [takeCommand_of_decode hd] at h
    rw [serr_of_exec h, hs, Bool.true_or] at ht
    have hi : i.clearsSerr = true := by simpa using ht
    simpa using (clearsSerr_iff i).1 hi

theorem clearing_input {s t : State} (h : step s = .next t) (hs : s.serr = true) (ht : t.serr = false) :
    (∃ rest, s.inbox = .powerOnReset :: rest) ∨
    (∃ w rest, s.inbox = .command w :: rest ∧ (decode w = .ok .clrErr ∨ decode w = .ok .softReset)) := by
  have hkept : ¬ t.serr = s.serr := by simp [hs, ht]
  cases hi : s.inbox with
  | nil => cases (step_of_empty hi).symm.trans h; exact absurd rfl hkept
  | cons e rest =>
    cases e with
    | command w => exact .inr ⟨w, rest, rfl, clearing_word ((step_of_command hi).symm.trans h) hs ht⟩
    | read a => cases (step_of_read hi).symm.trans h; exact absurd rfl hkept
    | powerOnReset => exact .inl ⟨rest, rfl⟩

/-! ## RES -/

/-- The state with another result of the last command. -/
def State.setRes (r : Result) (s : State) : State := { s with res := r }

section Res
variable (r : Result) (s : State)

theorem record_setRes (code : Result) : record code (s.setRes r) = record code s := by
  cases code <;> rfl

theorem runEncoder_setRes (a : Byte) (okay : Bool) (fc : Byte) (p : List Byte) :
    runEncoder a okay fc p (s.setRes r) = runEncoder a okay fc p s := by
  rw [runEncoder_eq, runEncoder_eq]
  rfl

theorem rxHeader_setRes (ea ef : Byte) : rxHeader ea ef (s.setRes r) = (rxHeader ea ef s).map id (·.setRes r) :=
  ite_eq_apply_ite rfl (ite_eq_apply_ite (ite_eq_apply_ite rfl rfl) (ite_eq_apply_ite rfl rfl))

theorem rxBody_setRes (ea ef : Byte) : rxBody ea ef (s.setRes r) = (rxBody ea ef s).map id (·.setRes r) :=
  ite_eq_apply_ite rfl (rxHeader_setRes r { s with rxcrc := _ } ea ef)

/-- The decode function carries the old result along and decides nothing by it. -/
theorem rxDecode_setRes (ea ef : Byte) : rxDecode ea ef (s.setRes r) = (rxDecode ea ef s).map id (·.setRes r) :=
  ite_eq_apply_ite rfl (ite_eq_apply_ite rfl (rxBody_setRes r { s with exc := _, plen := _ } ea ef))

theorem finish_rxDecode_setRes (ea ef : Byte) (g : Result → Result) :
    finish (g (rxDecode ea ef (s.setRes r)).1) (rxDecode ea ef (s.setRes r)).2 =
      finish (g (rxDecode ea ef s).1) (rxDecode ea ef s).2 := by
  rw [rxDecode_setRes]
  exact congrArg Host.Outcome.next (record_setRes r _ _)

/-- With another RES a command takes the same branch, and every branch ends by writing RES. -/
theorem exec_setRes (i : Instr) : exec i (s.setRes r) = exec i s := by
  cases i with
  | nop | clrErr | setChcount | softReset | crcInit | crcByte | txBegin | txByte | txU16 | txEnd | txClear | rxClear
  | rxByte => rfl
  | encRc | encWsc | encWmc | encWmr => exact runEncoder_setRes ..
  | decCheck a fc => exact finish_rxDecode_setRes r s a fc id
  | decEcho => exact ite_congr rfl (fun _ => rfl) fun _ => finish_rxDecode_setRes r s _ _ (echoResult · s)

end Res

/-- Settles O13: SERR is what each effect leaves it and the recorded result makes of it, and RES is read nowhere. -/
theorem serrIsSticky : Obligations.SerrIsSticky :=
  ⟨fun _ _ _ => serr_of_exec, fun _ _ => clearing_input, fun i s r => exec_setRes r s i⟩

end Sys2Proof.Machine
end

section
/-! PROOFS. The codes each command ends with, and that it can end with each of them and with ILLEGAL
(spec/60_exceptions.md R221, 30_encoding.md R74). -/

namespace Sys2Proof.Machine

/-! ## Only the listed codes -/

/-- The outcome is a next state whose RES is one of the codes. -/
def EndsIn (codes : List Result) (o : Host.Outcome State Fault Refusal) : Prop := ∃ t, o = .next t ∧ t.res ∈ codes

section
variable {codes : List Result}

theorem endsIn_finish {code : Result} (h : code ∈ codes) (s : State) : EndsIn codes (finish code s) :=
  ⟨_, rfl, by rwa [record_res]⟩

theorem endsIn_ite {c : Prop} [Decidable c] {x y : Host.Outcome State Fault Refusal} (hx : EndsIn codes x)
    (hy : EndsIn codes y) : EndsIn codes (if c then x else y) :=
  iteInduction (fun _ => hx) (fun _ => hy)

/-- An encoder ends CONFIG, RANGE or OK, and RANGE only where it checks operands (42_encoders.md R140). -/
theorem endsIn_runEncoder {okay : Bool} (hconfig : .config ∈ codes) (hrange : okay = false → .range ∈ codes)
    (hok : .ok ∈ codes) (a fc : Byte) (p : List Byte) (s : State) : EndsIn codes (runEncoder a okay fc p s) := by
  refine endsIn_ite (endsIn_finish hconfig _) ?_
  cases okay with
  | false => exact endsIn_finish (hrange rfl) _
  | true => exact endsIn_finish hok _

end

/-- The decode function's results are those of DEC_CHECK (43_frame_rx.md R175, R176). -/
theorem rxDecode_result_mem (ea ef : Byte) (s : State) : (rxDecode ea ef s).1 ∈ (Instr.decCheck ea ef).results := by
  simp only [rxDecode, rxBody, rxHeader]
  split_ifs <;> simp [Instr.results]

/-- DEC_ECHO adds the result of the comparison with the request (43_frame_rx.md R177). -/
theorem echoResult_rxDecode_mem (ea ef : Byte) (s : State) :
    echoResult (rxDecode ea ef s).1 s ∈ Instr.decEcho.results := by
  obtain he | ⟨-, he⟩ := echoResult_cases (rxDecode ea ef s).1 s
  · rw [he]
    have hsub : (Instr.decCheck ea ef).results ⊆ Instr.decEcho.results := by simp [Instr.results]
    exact hsub (rxDecode_result_mem ea ef s)
  · rw [he]
    decide

theorem exec_endsIn_results (i : Instr) (s : State) : EndsIn i.results (exec i s) := by
  cases i with
  | nop | clrErr | softReset | txClear | rxClear => exact endsIn_finish (by decide) _
  | setChcount | crcInit | crcByte | txEnd | rxByte =>
    exact endsIn_ite (endsIn_finish (by simp [Instr.results]) _) (endsIn_finish (by simp [Instr.results]) _)
  | txBegin | txByte | txU16 =>
    exact endsIn_ite (endsIn_finish (by simp [Instr.results]) _)
      (endsIn_ite (endsIn_finish (by simp [Instr.results]) _) (endsIn_finish (by simp [Instr.results]) _))
  | encRc | encWsc | encWmc | encWmr =>
    exact endsIn_runEncoder (by simp [Instr.results]) (by simp [Instr.results]) (by simp [Instr.results]) ..
  | decCheck a fc => exact endsIn_finish (rxDecode_result_mem a fc s) _
  | decEcho => exact endsIn_ite (endsIn_finish (by decide) _) (endsIn_finish (echoResult_rxDecode_mem _ _ s) _)

/-! ## Each listed code -/

/-- Some operands and state of the command's mnemonic end with the code. -/
def CanEnd (i : Instr) (code : Result) : Prop :=
  ∃ (j : Instr) (s t : State), fieldOp (encode j) = fieldOp (encode i) ∧ exec j s = .next t ∧ t.res = code

/-- Commands of one row of the opcode map have one opcode, so an example of the row will do. -/
theorem canEnd_of_example {i : Instr} (j : Instr) (s : State) {t : State} {code : Result} (hrow : j.row = i.row)
    (he : exec j s = .next t) (hr : t.res = code) : CanEnd i code :=
  ⟨j, s, t, by rw [fieldOp_encode, fieldOp_encode, hrow], he, hr⟩

theorem forall_mem_pair_canEnd {i : Instr} {c d : Result} (hc : CanEnd i c) (hd : CanEnd i d) :
    ∀ code ∈ [c, d], CanEnd i code :=
  List.forall_mem_cons.2 ⟨hc, List.forall_mem_singleton.2 hd⟩

theorem forall_mem_triple_canEnd {i : Instr} {c d e : Result} (hc : CanEnd i c) (hd : CanEnd i d) (he : CanEnd i e) :
    ∀ code ∈ [c, d, e], CanEnd i code :=
  List.forall_mem_cons.2 ⟨hc, forall_mem_pair_canEnd hd he⟩

/-- The reset state with an OPEN frame of `n` bytes. -/
def openState (n : Nat) : State := { State.reset with txstate := .opened, txbuf := List.replicate n 0x00#8 }

/-- A request to address 1 with function code 1 is SEALED, and a response has arrived that makes DEC_ECHO, and DEC_CHECK
of the same header, end with the code. -/
def responseFor (code : Result) : State :=
  { State.reset with
    txstate := .sealed
    txbuf := frame 1#8 1#8 []
    rxovf := code = .overflow
    rxbuf := match code with
      | .crcMismatch => [1#8, 1#8, 0#8, 0#8]
      | .addrMismatch => frame 2#8 1#8 []
      | .exception => frame 1#8 0x81#8 [2#8]
      | .funcMismatch => frame 1#8 2#8 []
      | .shortFrame => []
      | .echoMismatch => frame 1#8 1#8 [0#8]
      | _ => frame 1#8 1#8 [] }

theorem rxDecode_responseFor :
    ∀ code ∈ (Instr.decCheck 1#8 1#8).results, (rxDecode 1#8 1#8 (responseFor code)).1 = code := by
  decide +kernel

theorem echoResult_responseFor :
    ∀ code ∈ Instr.decEcho.results, code ≠ .sequence →
      echoResult (rxDecode 1#8 1#8 (responseFor code)).1 (responseFor code) = code := by
  decide +kernel

theorem canEnd_of_appendsPayload {i : Instr} (hi : i.appendsPayload = true) :
    ∀ code ∈ [.ok, .overflow, .sequence], CanEnd i code := by
  have hpayload : 1 ≤ i.payload.length ∧ i.payload.length ≤ 2 := by
    cases i with
    | txByte | txU16 => simp [Instr.payload]
    | _ => cases hi
  have hlen (n : Nat) : (openState n).txbuf.length = n := List.length_replicate
  exact forall_mem_triple_canEnd
    (canEnd_of_example i (openState 0) rfl (exec_of_appendsPayload hi rfl (by rw [hlen]; omega)) (record_res ..))
    (canEnd_of_example i (openState 254) rfl (exec_of_appendsPayload_no_room hi rfl (by rw [hlen]; omega)) rfl)
    (canEnd_of_example i State.reset rfl (exec_of_appendsPayload_not_opened hi nofun) rfl)

theorem canEnd_of_mem_results (i : Instr) : ∀ code ∈ i.results, CanEnd i code := by
  cases i with
  | decCheck a fc =>
    intro code hcode
    exact canEnd_of_example (.decCheck 1#8 1#8) (responseFor code) rfl (exec_decCheck 1#8 1#8 _)
      ((record_res ..).trans (rxDecode_responseFor code hcode))
  | decEcho =>
    intro code hcode
    by_cases hseq : code = .sequence
    · exact hseq ▸ canEnd_of_example .decEcho State.reset rfl rfl rfl
    · exact canEnd_of_example .decEcho (responseFor code) rfl (exec_decEcho_of_sealed rfl)
        ((record_res ..).trans (echoResult_responseFor code hcode hseq))
  | nop | clrErr | softReset | txClear | rxClear =>
    exact List.forall_mem_singleton.2 (canEnd_of_example _ State.reset rfl rfl rfl)
  | setChcount b =>
    exact forall_mem_pair_canEnd
      (canEnd_of_example (.setChcount 1#16) State.reset rfl rfl rfl)
      (canEnd_of_example (.setChcount 0#16) State.reset rfl rfl rfl)
  | crcInit =>
    exact forall_mem_pair_canEnd
      (canEnd_of_example .crcInit State.reset rfl rfl rfl)
      (canEnd_of_example .crcInit (openState 0) rfl rfl rfl)
  | crcByte a =>
    exact forall_mem_pair_canEnd
      (canEnd_of_example (.crcByte a) State.reset rfl rfl rfl)
      (canEnd_of_example (.crcByte a) (openState 0) rfl rfl rfl)
  | txEnd =>
    exact forall_mem_pair_canEnd
      (canEnd_of_example .txEnd (openState 0) rfl rfl rfl)
      (canEnd_of_example .txEnd State.reset rfl rfl rfl)
  | txBegin a fc =>
    exact forall_mem_triple_canEnd
      (canEnd_of_example (.txBegin 247#8 0x7F#8) State.reset rfl rfl rfl)
      (canEnd_of_example (.txBegin 247#8 0x80#8) State.reset rfl rfl rfl)
      (canEnd_of_example (.txBegin 248#8 0x7F#8) State.reset rfl rfl rfl)
  | encRc a b c =>
    exact forall_mem_triple_canEnd
      (canEnd_of_example (.encRc 247#8 1#16 1#16) State.reset rfl rfl rfl)
      (canEnd_of_example (.encRc 247#8 0#16 1#16) State.reset rfl rfl rfl)
      (canEnd_of_example (.encRc 248#8 1#16 1#16) State.reset rfl rfl rfl)
  | encWsc a b on =>
    exact forall_mem_triple_canEnd
      (canEnd_of_example (.encWsc 247#8 1#16 on) State.reset rfl rfl rfl)
      (canEnd_of_example (.encWsc 247#8 0#16 on) State.reset rfl rfl rfl)
      (canEnd_of_example (.encWsc 248#8 1#16 on) State.reset rfl rfl rfl)
  | encWmc a b c on =>
    exact forall_mem_triple_canEnd
      (canEnd_of_example (.encWmc 247#8 1#16 1#16 on) State.reset rfl rfl rfl)
      (canEnd_of_example (.encWmc 247#8 0#16 1#16 on) State.reset rfl rfl rfl)
      (canEnd_of_example (.encWmc 248#8 1#16 1#16 on) State.reset rfl rfl rfl)
  | encWmr a b c =>
    exact forall_mem_pair_canEnd
      (canEnd_of_example (.encWmr 247#8 b c) State.reset rfl rfl rfl)
      (canEnd_of_example (.encWmr 248#8 b c) State.reset rfl rfl rfl)
  | txByte | txU16 => exact canEnd_of_appendsPayload rfl
  | rxByte a =>
    exact forall_mem_pair_canEnd
      (canEnd_of_example (.rxByte a) State.reset rfl rfl rfl)
      (canEnd_of_example (.rxByte a) { State.reset with rxbuf := List.replicate 256 0x00#8 } rfl
        (exec_rxByte_of_full List.length_replicate a) rfl)

/-! ## ILLEGAL -/

/-- The word with the opcode and every operand bit set. -/
def allOperandBitsSet (op : BitVec 8) : CommandWord := assemble op 0xFF#8 0xFFFF#16 0xFFFF#16 0xFFFF#16

/-- Every opcode of the map has must-be-zero bits, and its word has them set. -/
theorem rows_allOperandBitsSet : ∀ r ∈ opcodeRows, wordWellFormed (allOperandBitsSet (fieldOp r.pattern)) = false := by
  simp only [opcodeRows, controlRows, crcRows, frameTxRows, encoderRows, frameRxRows, List.cons_append, List.nil_append]
  decide

theorem exists_illegal_word (i : Instr) : ∃ w : CommandWord, fieldOp w = fieldOp (encode i) ∧
    ∀ s : State, takeCommand w s = .next { s with res := .illegal, serr := true } := by
  obtain ⟨e, hd⟩ := decode_of_not_wellFormed (rows_allOperandBitsSet i.row (row_mem i))
  refine ⟨allOperandBitsSet (fieldOp i.row.pattern), ?_, fun s => ?_⟩
  · rw [allOperandBitsSet, fieldOp_assemble, fieldOp_encode]
  · rw [takeCommand_of_reject hd, record_of_ne_ok (by decide)]

/-- Settles O14: the branches of each command, an example for each branch, and a word with every operand bit set. -/
theorem commandsEndWithTheListedCodes : Obligations.CommandsEndWithTheListedCodes :=
  ⟨exec_endsIn_results, canEnd_of_mem_results, exists_illegal_word⟩

end Sys2Proof.Machine
end

section
/-! PROOFS. The two resets, and the invariant at reset (spec/70_reset_and_hazards.md R250, R251, R253). -/

namespace Sys2Proof.Machine

/-- Settles O17: both resets put the block into the reset state, whose elements are R33's literals. -/
theorem bothResetsSetEveryElement : Obligations.BothResetsSetEveryElement :=
  ⟨exec_softReset, fun _ _ => step_of_powerOnReset⟩

/-- Settles O18: both buffers are empty, CHCOUNT is 16 and RES is OK. -/
theorem resetMeetsTheInvariant : Obligations.ResetMeetsTheInvariant :=
  ⟨txInv_of_empty rfl rfl, rxInv_of_empty (Nat.zero_le _) rfl rfl, by decide⟩

end Sys2Proof.Machine
end

section
/-! PROOFS. What the host may transmit is a sound frame (spec/70_reset_and_hazards.md R262, 10_state.md R25, 40_crc.md
R103, 20_memory.md R52). -/

namespace Sys2Proof.Machine

theorem crc16_frame (a fc : Byte) (p : List Byte) : crc16 (frame a fc p) = 0x0000#16 :=
  (crcResidue (a :: fc :: p)).1

/-- The bounds in the third bullet of R25. -/
theorem length_of_sealed {s : State} (hs : s.TxInv) (h : s.txstate = .sealed) :
    4 ≤ s.txbuf.length ∧ s.txbuf.length ≤ 256 := by
  obtain ⟨-, -, hsealed, -⟩ := hs
  obtain ⟨hmin, hmax, -⟩ := hsealed h
  exact ⟨hmin, hmax⟩

/-- The fourth bullet of R25, of a frame that stands in TXBUF. -/
theorem header_of_txbuf_eq_frame {s : State} {a fc : Byte} {p : List Byte} (hs : s.TxInv) (h : s.txbuf = frame a fc p) :
    a.toNat ≤ 247 ∧ 1 ≤ fc.toNat ∧ fc.toNat ≤ 127 := by
  obtain ⟨-, -, -, hheader⟩ := hs
  rw [h] at hheader
  exact hheader (by rw [length_frame]; omega)

/-- A length of at most 256 is read whole at 0x002 (20_memory.md R52). -/
theorem regRead_txlen {s : State} (h : s.txbuf.length ≤ 256) : (regRead 0x002#10 s).toNat = s.txbuf.length := by
  obtain ⟨-, -, htxlen, -⟩ := readPortMap s
  exact htxlen h

/-- Inside the buffer the window at 0x100 shows TXBUF in index order (20_memory.md R52). -/
theorem regRead_txbuf_getElem? {s : State} (h : s.txbuf.length ≤ 256) {k : Nat} (hk : k < s.txbuf.length) :
    some (regRead (BitVec.ofNat 10 (0x100 + k)) s) = (s.txbuf[k]?).map (·.setWidth 16) := by
  rw [regRead_txbuf_at (by omega), bufferRead_eq, dif_pos hk, List.getElem?_eq_getElem hk, Option.map_some]

/-- Settles O56: the step keeps R25, so the sealed buffer is a frame with a legal header, and a frame has CRC 0. -/
theorem transmittableFrameIsSound : Obligations.TransmittableFrameIsSound := by
  intro s t m hs hstep hm
  have ht : t.TxInv := everyStepKeepsTxInvariants s t hs hstep
  obtain ⟨hsealed, rfl⟩ := (requestToSend_eq_some_iff t m).1 hm
  obtain ⟨hmin, hmax⟩ := length_of_sealed ht hsealed
  obtain ⟨a, fc, p, hframe, -⟩ := exists_eq_frame_of_sealed ht hsealed
  have hcrc : crc16 t.txbuf = 0x0000#16 := by rw [hframe, crc16_frame]
  exact ⟨hmin, hmax, hcrc, ⟨a, fc, _, hframe, header_of_txbuf_eq_frame ht hframe⟩, regRead_txlen hmax,
    fun k hk => regRead_txbuf_getElem? hmax hk⟩

end Sys2Proof.Machine
end

section
/-! PROOFS. A sealed frame was built by TX_END or an encoder that ended OK (spec/70_reset_and_hazards.md R262,
41_frame_tx.md R124, 42_encoders.md R140). -/

namespace Sys2Proof.Machine

/-! ## One command -/

/-- The encoders' two failures leave no frame (42_encoders.md R140). -/
theorem res_ok_of_runEncoder_sealed {a fc : Byte} {okay : Bool} {p : List Byte} {s t : State}
    (h : runEncoder a okay fc p s = .next t) (ht : t.txstate = .sealed) : t.res = .ok := by
  rw [runEncoder_eq] at h
  split_ifs at h
  · cases h; cases ht
  · cases h; cases ht
  · cases h; rfl

/-- After a command a frame is sealed because it was, or because the command built it. -/
theorem sealed_cases_of_exec {i : Instr} {s t : State} (h : exec i s = .next t) (ht : t.txstate = .sealed) :
    (s.txstate = .sealed ∧ t.txbuf = s.txbuf) ∨ (t.res = .ok ∧ (i = .txEnd ∨ i.isEncoder = true)) := by
  obtain ⟨code, u, hu, rfl⟩ := effect_of_exec h
  rw [record_txstate] at ht
  rw [record_txbuf]
  cases hu with
  | sealFrame hi ho =>
    subst hi
    rw [exec_txEnd_of_opened ho] at h
    exact .inr ⟨congrArg State.res (Host.Outcome.next.inj h).symm, .inl rfl⟩
  | buildFrame a fc p hi =>
    obtain ⟨a', okay, fc', p', he⟩ := exec_eq_runEncoder hi s
    exact .inr ⟨res_ok_of_runEncoder_sealed (he.symm.trans h) (by rwa [record_txstate]), .inr hi⟩
  | reset | discard | openFrame => cases ht
  | append m hi ho =>
    rw [txPushAll_txstate, ho] at ht
    cases ht
  | decode ea ef => exact .inl ⟨by rwa [rxDecode_txstate] at ht, rxDecode_txbuf ea ef s⟩
  | unchanged | clearSerr | setChcount | setCrc | clearRx | overflowRx | captureRx => exact .inl ⟨ht, rfl⟩

/-! ## One step -/

/-- The next input of `u` is TX_END or an encoder, and the state after it says that it ended OK. -/
def BuildsFrame (u v : State) : Prop :=
  v.res = .ok ∧ ∃ w rest i, u.inbox = .command w :: rest ∧ decode w = .ok i ∧ (i = .txEnd ∨ i.isEncoder = true)

/-- After a step a frame is sealed because it was, or because the step built it. -/
theorem sealed_cases_of_step {s t : State} (h : step s = .next t) (ht : t.mayTransmit = true) :
    (s.mayTransmit = true ∧ t.txbuf = s.txbuf) ∨ BuildsFrame s t := by
  cases hi : s.inbox with
  | nil =>
    cases (step_of_empty hi).symm.trans h
    exact .inl ⟨ht, rfl⟩
  | cons e rest =>
    cases e with
    | command w =>
      rw [step_of_command hi] at h
      cases hd : decode w with
      | error e =>
        cases (takeCommand_of_reject hd _).symm.trans h
        exact .inl ⟨ht, rfl⟩
      | ok i =>
        rw [takeCommand_of_decode hd] at h
        rw [mayTransmit_iff] at ht ⊢
        exact (sealed_cases_of_exec h ht).imp_right fun ⟨hok, hbuilds⟩ => ⟨hok, w, rest, i, hi, hd, hbuilds⟩
    | read a =>
      cases (step_of_read hi).symm.trans h
      exact .inl ⟨ht, rfl⟩
    | powerOnReset =>
      cases (step_of_powerOnReset hi).symm.trans h
      cases ht

/-! ## A run -/

/-- Step `k` of the `n` steps from `s` to `t`, which leads from `u` to `v`, builds the frame that `t` holds. -/
structure BuiltAt (n : Nat) (s t : State) (k : Nat) (u v : State) : Prop where
  lt : k < n
  before : Host.Core.run core k s = .next u
  step : step u = .next v
  after : Host.Core.run core (n - k - 1) v = .next t
  builds : BuildsFrame u v
  sealed : v.mayTransmit = true
  txbuf : v.txbuf = t.txbuf

theorem BuiltAt.succ {n k : Nat} {s s' t u v : State} (hs : Machine.step s = .next s') (h : BuiltAt n s' t k u v) :
    BuiltAt (n + 1) s t (k + 1) u v :=
  { h with
    lt := Nat.succ_lt_succ h.lt
    before := (run_succ_of_step hs k).trans h.before
    after := by rw [Nat.succ_sub_succ]; exact h.after }

/-- After a run a frame is sealed because it was there at the start, or because a step of the run built it. The first case
says that TXBUF is unchanged: the induction then takes the last step that built a frame, and not one whose frame was
replaced. -/
theorem sealed_cases_of_run {n : Nat} {s t : State} (h : Host.Core.run core n s = .next t) (ht : t.mayTransmit = true) :
    (s.mayTransmit = true ∧ t.txbuf = s.txbuf) ∨ ∃ k u v, BuiltAt n s t k u v := by
  induction n generalizing s with
  | zero =>
    cases h
    exact .inl ⟨ht, rfl⟩
  | succ n ih =>
    obtain ⟨s', hs, -⟩ := step_completes s
    rw [run_succ_of_step hs] at h
    obtain ⟨hsealed, hkept⟩ | ⟨k, u, v, hbuilt⟩ := ih h
    · obtain ⟨hsealed₀, hkept₀⟩ | hbuilds := sealed_cases_of_step hs hsealed
      · exact .inl ⟨hsealed₀, hkept.trans hkept₀⟩
      · exact .inr ⟨0, s, s', Nat.succ_pos n, rfl, hs, h, hbuilds, hsealed, hkept.symm⟩
    · exact .inr ⟨k + 1, u, v, hbuilt.succ hs⟩

/-- Settles O58: one step by its input, a run by induction on its steps; without a sealed frame at the start the frame at
the end was built on the way. -/
theorem sealedFrameWasBuiltOk : Obligations.SealedFrameWasBuiltOk := by
  refine ⟨fun s t => sealed_cases_of_step, fun n s t hs hrun ht => ?_⟩
  obtain ⟨hsealed, -⟩ | ⟨k, u, v, hlt, hbefore, hstep, hafter, ⟨hok, hinput⟩, hsealed, hbuf⟩ :=
    sealed_cases_of_run hrun ht
  · simp [hs] at hsealed
  · exact ⟨k, u, v, hlt, hbefore, hstep, hafter, hinput, hok, hsealed, hbuf⟩

end Sys2Proof.Machine
end
